-- ==== Sys2Proof/Word.lean ====
section
/-! DEFINITION. The value types of the block: the widths of 10_state.md and 30_encoding.md, and nothing else. -/

namespace Sys2Proof

/-- A 64-bit engine word, seed, hash, configuration ceiling or response datum (00_scope.md R7, R9). -/
abbrev Word := BitVec 64

/-- A DRAW accumulator, 96 bits (00_scope.md R9, 10_state.md R35). -/
abbrev Acc := BitVec 96

/-- A command packet, 136 bits: B in bits 135..72, A in bits 71..8, OP in bits 7..0 (30_encoding.md R70). -/
abbrev Packet := BitVec 136

end Sys2Proof
end

