-- ==== Sys2Proof/Syntax.lean ====
section
/-! DEFINITION. The eight commands of 30_encoding.md R73, with the fields of their formats (R72) at their own widths. -/

namespace Sys2Proof

/-- One command of the block; one constructor per row of spec/opcode_table.json. -/
inductive Instr where
  /-- HCLR, OP 0x01, format N (R101). -/
  | hclr
  /-- HBYTE imm8, OP 0x02, format B8 (R102). -/
  | hbyte (imm8 : BitVec 8)
  /-- SEED seed, OP 0x10, format S64 (R122). -/
  | seed (seed : Word)
  /-- SEEDH, OP 0x11, format N (R123). -/
  | seedh
  /-- NEXT, OP 0x20, format N (R132). -/
  | next
  /-- CFGW bits, max, OP 0x30, format CFG (R160). -/
  | cfgw (bits : BitVec 7) (max : Word)
  /-- DRAW low, high, OP 0x40, format DR (R161). -/
  | draw (low high : BitVec 32)
  /-- RDREG reg, OP 0x50, format REG (R190). -/
  | rdreg (reg : BitVec 8)
  deriving DecidableEq, Repr

/-- The command's mnemonic as spec/opcode_table.json spells it. -/
def Instr.mnemonic : Instr → String
  | .hclr => "HCLR"
  | .hbyte _ => "HBYTE"
  | .seed _ => "SEED"
  | .seedh => "SEEDH"
  | .next => "NEXT"
  | .cfgw _ _ => "CFGW"
  | .draw _ _ => "DRAW"
  | .rdreg _ => "RDREG"

end Sys2Proof
end

