-- ==== Sys2Proof/WellFormed.lean ====
section
/-! DEFINITION. Which commands carry meaningful operands (30_encoding.md R78). Every field has its exact width in the
syntax, so every term of Instr has a packet and decodes; what is left to check is R78's list, which the block itself
checks in execution, not in decoding. A command that fails a check is legal: it runs and raises the fault R78 names. -/

namespace Sys2Proof

/-- R78's three checks: CFGW's `bits` in 1..64, DRAW's `low` ≤ `high`, RDREG's `reg` in 0..4. -/
def Instr.wellFormed : Instr → Bool
  | .hclr => true
  | .hbyte _ => true
  | .seed _ => true
  | .seedh => true
  | .next => true
  | .cfgw bits _ => decide (1 ≤ bits.toNat) && decide (bits.toNat ≤ 64)
  | .draw low high => decide (low.toNat ≤ high.toNat)
  | .rdreg reg => decide (reg.toNat ≤ 4)

end Sys2Proof
end

