-- ==== Sys2Proof/Decode.lean ====
section
/-! DEFINITION. The packet's fields, the total decoder of 30_encoding.md R74 with the reason of each rejection, the
encoder, and the opcode table as data. -/

namespace Sys2Proof

/-- Why a packet is ILLEGAL (30_encoding.md R74): its OP is unassigned (R76), or a reserved bit is set (R75). -/
inductive Illegal where
  | unassignedOp (op : BitVec 8)
  | reservedBits (op : BitVec 8)
  deriving DecidableEq, Repr

/-- OP, packet bits 7..0 (R70). -/
def opOf (p : Packet) : BitVec 8 := p.extractLsb' 0 8

/-- Operand A, packet bits 71..8 (R70). -/
def aOf (p : Packet) : Word := p.extractLsb' 8 64

/-- Operand B, packet bits 135..72 (R70). -/
def bOf (p : Packet) : Word := p.extractLsb' 72 64

/-- The field of `n` bits of an operand that starts at bit 0; every field of R72 starts there. -/
def lowField (n : Nat) (x : Word) : BitVec n := x.extractLsb' 0 n

/-- The bits of an operand from bit `n` up, all reserved in a format whose field is `n` bits wide, are 0 (R72, R75). -/
def highBitsZero (n : Nat) (x : Word) : Bool := x >>> n == 0

/-- A command whose reserved bits are 0 is legal; a set reserved bit is never ignored (R75). -/
def ifReservedZero (clear : Bool) (op : BitVec 8) (i : Instr) : Except Illegal Instr :=
  if clear then .ok i else .error (.reservedBits op)

/-- Decoding, total over every 136-bit packet (R74). -/
def decode (p : Packet) : Except Illegal Instr :=
  let op := opOf p
  let a := aOf p
  let b := bOf p
  if op = 0x01 then ifReservedZero (a == 0 && b == 0) op .hclr
  else if op = 0x02 then ifReservedZero (highBitsZero 8 a && b == 0) op (.hbyte (lowField 8 a))
  else if op = 0x10 then ifReservedZero (b == 0) op (.seed a)
  else if op = 0x11 then ifReservedZero (a == 0 && b == 0) op .seedh
  else if op = 0x20 then ifReservedZero (a == 0 && b == 0) op .next
  else if op = 0x30 then ifReservedZero (highBitsZero 7 a) op (.cfgw (lowField 7 a) b)
  else if op = 0x40 then
    ifReservedZero (highBitsZero 32 a && highBitsZero 32 b) op (.draw (lowField 32 a) (lowField 32 b))
  else if op = 0x50 then ifReservedZero (highBitsZero 8 a && b == 0) op (.rdreg (lowField 8 a))
  else .error (.unassignedOp op)

/-- `P = {B, A, OP}` (R70). -/
def packet (op : BitVec 8) (a b : Word) : Packet := b ++ a ++ op

/-- A field at bit 0 of an operand, zero-extended (R72). -/
def operand {n : Nat} (x : BitVec n) : Word := x.setWidth 64

/-- The packet of a command, from R72 and R73, its reserved bits 0. -/
def encode : Instr → Packet
  | .hclr => packet 0x01 0 0
  | .hbyte imm8 => packet 0x02 (operand imm8) 0
  | .seed seed => packet 0x10 seed 0
  | .seedh => packet 0x11 0 0
  | .next => packet 0x20 0 0
  | .cfgw bits max => packet 0x30 (operand bits) max
  | .draw low high => packet 0x40 (operand low) (operand high)
  | .rdreg reg => packet 0x50 (operand reg) 0

/-- A row of spec/opcode_table.json: a packet is the row's command when its bits under `mask` are `bits`. -/
structure OpcodeRow where
  mnemonic : String
  bits : Packet
  mask : Packet
  deriving DecidableEq, Repr

/-- spec/opcode_table.json, row for row. -/
def opcodeTable : List OpcodeRow :=
  [ ⟨"HCLR", 0x0000000000000000000000000000000001, 0xFFFFFFFFFFFFFFFFFFFFFFFFFFFFFFFFFF⟩,
    ⟨"HBYTE", 0x0000000000000000000000000000000002, 0xFFFFFFFFFFFFFFFFFFFFFFFFFFFFFF00FF⟩,
    ⟨"SEED", 0x0000000000000000000000000000000010, 0xFFFFFFFFFFFFFFFF0000000000000000FF⟩,
    ⟨"SEEDH", 0x0000000000000000000000000000000011, 0xFFFFFFFFFFFFFFFFFFFFFFFFFFFFFFFFFF⟩,
    ⟨"NEXT", 0x0000000000000000000000000000000020, 0xFFFFFFFFFFFFFFFFFFFFFFFFFFFFFFFFFF⟩,
    ⟨"CFGW", 0x0000000000000000000000000000000030, 0x0000000000000000FFFFFFFFFFFFFF80FF⟩,
    ⟨"DRAW", 0x0000000000000000000000000000000040, 0xFFFFFFFF00000000FFFFFFFF00000000FF⟩,
    ⟨"RDREG", 0x0000000000000000000000000000000050, 0xFFFFFFFFFFFFFFFFFFFFFFFFFFFFFF00FF⟩ ]

/-- The packet is one of the row's. -/
def OpcodeRow.covers (r : OpcodeRow) (p : Packet) : Bool := p &&& r.mask == r.bits

/-- The packet a number gives whose bits are numbered as spec/opcode_table.json numbers them, the bits from `nbits` up
read as 0. A packet has no byte order (20_memory.md R53): bit `k` of the number is packet bit `k`. -/
def tablePacket (nbits w : Nat) : Packet := BitVec.ofNat 136 (w % 2 ^ nbits)

/-- The command the decoder reads from a table word; a number of more than 136 bits is no packet (R77). -/
def decodeTableWord (nbits w : Nat) : Option Instr :=
  if nbits ≤ 136 then (decode (tablePacket nbits w)).toOption else none

end Sys2Proof
end

