-- ==== Sys2Proof/Config.lean ====
section
/-! DEFINITION. What is fixed for a machine: the two parameters of 00_scope.md R8, and the free values of the registers that
93_implementation_defined.md I19 calls `any value`. The parameters' values on this hardware are in
Machine/Operands.lean (`thisHardware`), the numbers of R7 in Machine/Engine.lean. -/

namespace Sys2Proof.Config

/-- The two parameters a model takes as arguments (00_scope.md R8). -/
structure Params where
  /-- HASH_SIGNED_BYTES: HBYTE sign-extends a byte ≥ 0x80 (true) or zero-extends it (false). -/
  hashSignedBytes : Bool
  /-- DRAW_WORD_CAP: the optional bound on the words one DRAW may consume. -/
  drawWordCap : Option Nat
  deriving DecidableEq, Repr

/-! The free values: what a DRAW micro-state register reads as while it holds `unwritten`. 93_implementation_defined.md
I19: "`any value`: no rule reads them while they are unwritten". No body: nothing can be proved of them. The
argument is the number of resets so far, so that two resets may leave two values (log entry 4, safe). -/

/-- ACC_V while unwritten. -/
opaque freeAccV : Nat → Acc
/-- ACC_D while unwritten. -/
opaque freeAccD : Nat → Acc
/-- D_RANGE while unwritten. -/
opaque freeRange : Nat → BitVec 33
/-- D_LOW while unwritten. -/
opaque freeLow : Nat → BitVec 32
/-- D_USED while unwritten. -/
opaque freeUsed : Nat → Nat

end Sys2Proof.Config
end

