-- ==== Sys2Proof/Machine/State.lean ====
section
/-! DEFINITION. The state of the block (10_state.md R20 to R36), the host's pins (30_encoding.md R71) and moves to come, the reset state
(70_reset_and_hazards.md R240), and the reasons a step can stop. -/

namespace Sys2Proof.Machine

/-- The state array (R21), element `i` at position `i`; `none` is the spec's own `unwritten` (00_scope.md R12). A list
of 624 elements; that it has 624 is an invariant every step keeps (log entry 11). -/
abbrev Words := List (Option Word)

/-- The TwisterEngine's state. -/
structure Engine where
  /-- WORDS (R21). -/
  words : Words
  /-- IDX (R22), `none` for `unwritten`. -/
  idx : Option (BitVec 10)
  /-- SEEDED (R25). -/
  seeded : Bool
  deriving DecidableEq, Repr

/-- The SeedHash unit's state. -/
structure HashUnit where
  /-- HASH (R26). -/
  value : Word
  /-- HASH_TERM (R27). -/
  term : Bool
  deriving DecidableEq, Repr

/-- The RangeSampler's configuration. -/
structure SamplerCfg where
  /-- CFG_BITS (R28). -/
  bits : BitVec 7
  /-- CFG_MAX (R29). -/
  max : Word
  deriving DecidableEq, Repr

/-- The error record. -/
structure ErrorRecord where
  /-- ERR_STICKY (R32). -/
  sticky : Bool
  /-- LAST_ERR (R33). -/
  last : BitVec 4
  deriving DecidableEq, Repr

/-- The micro-step a running DRAW takes next: the target of the last "go to" of 42_range_sampler.md R163 to R167
(DEDUCED, log entry 5). START runs in the command itself, EXHAUST and FINISH in the step that goes to them (log entry 6). -/
inductive MicroStep where
  | attempt
  | test
  | fetch
  | eval
  deriving DecidableEq, Repr

/-- The DRAW micro-state registers (R35); `none` is `unwritten`. -/
structure DrawRegs where
  /-- BUSY. -/
  busy : Bool
  /-- ACC_V. -/
  accV : Option Acc
  /-- ACC_D. -/
  accD : Option Acc
  /-- D_RANGE. -/
  range : Option (BitVec 33)
  /-- D_LOW. -/
  low : Option (BitVec 32)
  /-- D_USED. -/
  used : Option Nat
  /-- Where the DRAW stands; read only while BUSY = 1. -/
  micro : MicroStep
  deriving DecidableEq, Repr

/-- The response register (R36); `none` is `unwritten`. -/
structure ResponseReg where
  /-- RSP_VALID. -/
  valid : Bool
  /-- RSP_STATUS. -/
  status : Option (BitVec 4)
  /-- RSP_DATA. -/
  data : Option Word
  deriving DecidableEq, Repr

/-- The block's input pins (30_encoding.md R71), as the host drives them. -/
structure HostPins where
  /-- `rst`. -/
  rst : Bool
  /-- `cmd_valid` with `cmd_op`, `cmd_a`, `cmd_b`: `none` where `cmd_valid` is 0, else the packet offered. -/
  cmd : Option Packet
  /-- `rsp_ready`. -/
  rspReady : Bool
  deriving DecidableEq, Repr

/-- What the host does before the block's next move: leaves its pins as they are, or drives them anew (log entry 7). -/
inductive HostMove where
  | hold
  | drive (pins : HostPins)
  deriving DecidableEq, Repr

/-- The environment: the pins now, and the host's moves to come, first move first (the model's own; log entry 7). -/
structure HostPort where
  pins : HostPins
  schedule : List HostMove
  deriving DecidableEq, Repr

/-- The state of the machine. -/
structure State where
  engine : Engine
  hash : HashUnit
  cfg : SamplerCfg
  err : ErrorRecord
  draw : DrawRegs
  rsp : ResponseReg
  host : HostPort
  /-- The model's own: how many resets there have been, the argument of the free values of an unwritten DRAW
  register (93_implementation_defined.md I19; log entry 4). -/
  resets : Nat
  deriving DecidableEq, Repr

/-- Why a step stops the machine with a fault. Every fault the BLOCK reports is a response, a next state
(60_exceptions.md R200); only the spec's own modelling fault stands here. -/
inductive Fault where
  /-- `UnwrittenRead` (00_scope.md R13): an engine read of WORDS[i] found `unwritten`. Raised by `readWord`. Safe: the
  model stops where 41_twister.md R140 proves no command sequence comes. -/
  | unwrittenRead (i : Nat)
  /-- `UnwrittenRead` of IDX (93_implementation_defined.md I7). Raised by `nextWord` and by RDREG 2 on an engine that
  says SEEDED but holds no IDX, which no run reaches. Safe. -/
  | unwrittenIdx
  deriving DecidableEq, Repr

/-- Why a command has no meaning. No command of this model is refused. -/
inductive Refusal where
  /-- Raised by `exec`'s arm of an instruction that is not modelled; no arm is one. Safe. -/
  | notModelled (mnemonic : String)
  deriving DecidableEq, Repr

/-- The state after reset (70_reset_and_hazards.md R240, 10_state.md R20): every register at the value the spec gives,
`unwritten` where it says so. The host's pins are idle and `rst` is released (DESIGN CHOICE, log entry 7). -/
def State.reset : State where
  engine := { words := List.replicate 624 none, idx := none, seeded := false }
  hash := { value := 0, term := false }
  cfg := { bits := 64, max := 0xFFFFFFFFFFFFFFFF }
  err := { sticky := false, last := 0 }
  draw := { busy := false, accV := none, accD := none, range := none, low := none, used := none, micro := .attempt }
  rsp := { valid := false, status := none, data := none }
  host := { pins := { rst := false, cmd := none, rspReady := false }, schedule := [] }
  resets := 0

end Sys2Proof.Machine
end

