-- ==== Sys2Proof/Machine/Flags.lean ====
section
/-! DEFINITION. The status codes (30_encoding.md R81), the error record (10_state.md R32, R33) and the STATUS word
(R31). The block has no arithmetic condition codes (R39). -/

namespace Sys2Proof.Machine

/-- The status of a response (30_encoding.md R81). Codes 6..15 are never produced. -/
inductive Status where
  | ok
  | illegalCmd
  | notSeeded
  | invalidRange
  | configError
  | samplingExhausted
  deriving DecidableEq, Repr

/-- The 4-bit code of a status (R81). -/
def statusCode : Status → BitVec 4
  | .ok => 0
  | .illegalCmd => 1
  | .notSeeded => 2
  | .invalidRange => 3
  | .configError => 4
  | .samplingExhausted => 5

/-- What the end of a command does to ERR_STICKY and LAST_ERR (30_encoding.md R80): a non-zero status sets both, status
OK leaves both. -/
def recordError (code : BitVec 4) (e : ErrorRecord) : ErrorRecord :=
  if code = 0 then e else { sticky := true, last := code }

/-- STATUS, composed on read (10_state.md R31): bit 0 SEEDED, bit 1 HASH_TERM, bit 2 ERR_STICKY, bit 3 reads 0, bits
7..4 LAST_ERR, bits 63..8 read 0. -/
def statusWord (s : State) : Word :=
  (0 : BitVec 56) ++ s.err.last ++ (0 : BitVec 1) ++ BitVec.ofBool s.err.sticky ++ BitVec.ofBool s.hash.term
    ++ BitVec.ofBool s.engine.seeded

end Sys2Proof.Machine
end

