-- ==== Sys2Proof/Machine/Operands.lean ====
section
/-! DEFINITION. This hardware's parameters, and what a command makes of its operands: the extension of a hash byte, the range of a DRAW, the legal bit
counts of CFGW and the register numbers of RDREG. -/

namespace Sys2Proof.Machine

/-- The values this hardware takes: HASH_SIGNED_BYTES = true, DRAW_WORD_CAP = none (00_scope.md R8; log entries 1, 2). -/
def thisHardware : Config.Params := { hashSignedBytes := true, drawWordCap := none }

/-- `ext(b)` (40_seed_hash.md R100, R105): sign or zero extension of a hash byte, as HASH_SIGNED_BYTES says. -/
def extByte (p : Config.Params) (b : BitVec 8) : Word :=
  if p.hashSignedBytes then b.signExtend 64 else b.setWidth 64

/-- `range = high - low + 1`, exact: 1..2^32 where `low` ≤ `high` (42_range_sampler.md R161). -/
def drawRange (low high : BitVec 32) : Nat := high.toNat - low.toNat + 1

/-- CFGW's legal `bits`, 1..64 (42_range_sampler.md R160). -/
def legalBits (bits : BitVec 7) : Bool := decide (1 ≤ bits.toNat) && decide (bits.toNat ≤ 64)

/-- The registers RDREG reads (43_register_access.md R191). -/
inductive RegName where
  | status
  | hash
  | idx
  | cfgBits
  | cfgMax
  deriving DecidableEq, Repr

/-- RDREG's register numbers: 0..4; any other names no register (43_register_access.md R190, R191). -/
def regName (reg : BitVec 8) : Option RegName :=
  if reg = 0 then some .status
  else if reg = 1 then some .hash
  else if reg = 2 then some .idx
  else if reg = 3 then some .cfgBits
  else if reg = 4 then some .cfgMax
  else none

end Sys2Proof.Machine
end

