-- ==== Sys2Proof/Machine/Ops.lean ====
section
/-! DEFINITION. The named operations over the state: ending a command with a response or a fault (the one shared
operation that raises it), reading and writing WORDS, the in-place loop, the registers' updates, and reset. -/

namespace Sys2Proof.Machine

/-- `respond(status, data)` (30_encoding.md R80): the end of a command. -/
def respond (st : Status) (data : Word) (s : State) : State :=
  { s with rsp := { valid := true, status := some (statusCode st), data := some data }
           err := recordError (statusCode st) s.err }

/-- `raise FAULT` (00_scope.md R12): the one way a command faults. It responds with the code and data 0; the error
record keeps the code (60_exceptions.md R200, R206). There is nothing to save, no handler to enter and nothing to
return from: the next command is accepted as after any other (R211, R212). -/
def raise (st : Status) (s : State) : State := respond st 0 s

/-- HASH and HASH_TERM take new values. -/
def setHash (value : Word) (term : Bool) (s : State) : State := { s with hash := { value := value, term := term } }

/-- CFG_BITS and CFG_MAX take new values. -/
def setCfg (bits : BitVec 7) (max : Word) (s : State) : State := { s with cfg := { bits := bits, max := max } }

/-- The engine (WORDS, IDX, SEEDED) takes a new state. -/
def setEngine (e : Engine) (s : State) : State := { s with engine := e }

/-- The DRAW micro-state takes a new state. -/
def setDraw (d : DrawRegs) (s : State) : State := { s with draw := d }

/-- The host's pins and moves to come take a new state. -/
def setHost (h : HostPort) (s : State) : State := { s with host := h }

/-- RSP_VALID takes a new value. -/
def setRspValid (v : Bool) (s : State) : State := { s with rsp := { s.rsp with valid := v } }

/-- Reading WORDS[i]; an element that holds `unwritten` is the modelling fault UnwrittenRead (00_scope.md R13). -/
def readWord (ws : Words) (i : Nat) : Except Fault Word :=
  match ws[i]? with
  | some (some w) => .ok w
  | _ => .error (.unwrittenRead i)

/-- `WORDS[i] <- w`, for `i` in 0..623, the only indices any rule writes (20_memory.md R52). -/
def writeWord (ws : Words) (i : Nat) (w : Word) : Words := ws.set i (some w)

/-- `for i = first to first + count - 1: WORDS <- body i` in ascending order and in place: each iteration sees the
writes of those before it (00_scope.md R14). -/
def forWords (body : Nat → Words → Except Fault Words) : Nat → Nat → Words → Except Fault Words
  | 0, _, ws => .ok ws
  | count + 1, first, ws =>
    match body first ws with
    | .ok ws' => forWords body count (first + 1) ws'
    | .error f => .error f

/-! Reading a DRAW micro-state register: what was written, or, while it holds `unwritten`, any value
(93_implementation_defined.md I19). -/

def readAccV (s : State) : Acc := s.draw.accV.getD (Config.freeAccV s.resets)
def readAccD (s : State) : Acc := s.draw.accD.getD (Config.freeAccD s.resets)
def readRange (s : State) : BitVec 33 := s.draw.range.getD (Config.freeRange s.resets)
def readLow (s : State) : BitVec 32 := s.draw.low.getD (Config.freeLow s.resets)
def readUsed (s : State) : Nat := s.draw.used.getD (Config.freeUsed s.resets)

/-- `rst` (70_reset_and_hazards.md R240, R241): every piece of block state at its reset value, whatever was running; the
host's pins and moves are not the block's. -/
def resetBlock (s : State) : State := { State.reset with host := s.host, resets := s.resets + 1 }

end Sys2Proof.Machine
end

