-- ==== Sys2Proof/Machine/Hash.lean ====
section
/-! DEFINITION. The SeedHash unit: HCLR and HBYTE (40_seed_hash.md). -/

namespace Sys2Proof.Machine

/-- `HashStep(h, b) = ext(b) + (h << 6) + (h << 16) - h` mod 2^64 (R100). -/
def hashStep (p : Config.Params) (h : Word) (b : BitVec 8) : Word := extByte p b + (h <<< 6) + (h <<< 16) - h

/-- HCLR (R101). -/
def execHclr (s : State) : Host.Outcome State Fault Refusal := .next (respond .ok 0 (setHash 0 false s))

/-- What one byte makes of the SeedHash unit (R102): nothing after the terminator; a NUL ends the input; any other byte
is hashed. -/
def hashByte (p : Config.Params) (b : BitVec 8) (h : HashUnit) : HashUnit :=
  if h.term then h
  else if b = 0 then { value := h.value, term := true }
  else { value := hashStep p h.value b, term := false }

/-- HBYTE under either value of HASH_SIGNED_BYTES (R102); the response is HASH after the byte. -/
def hbyteWith (p : Config.Params) (imm8 : BitVec 8) (s : State) : State :=
  let h := hashByte p imm8 s.hash
  respond .ok h.value (setHash h.value h.term s)

/-- HBYTE (R102) on this hardware. -/
def execHbyte (imm8 : BitVec 8) (s : State) : Host.Outcome State Fault Refusal :=
  .next (hbyteWith thisHardware imm8 s)

end Sys2Proof.Machine
end

