-- ==== Sys2Proof/Machine/RegAccess.lean ====
section
/-! DEFINITION. RDREG (43_register_access.md R190, R191). -/

namespace Sys2Proof.Machine

/-- RDREG (R190): the value is read before the command's own response is written. -/
def execRdreg (reg : BitVec 8) (s : State) : Host.Outcome State Fault Refusal :=
  match regName reg with
  | some .status => .next (respond .ok (statusWord s) s)
  | some .hash => .next (respond .ok s.hash.value s)
  | some .idx =>
    if s.engine.seeded then
      match s.engine.idx with
      | some idx => .next (respond .ok (idx.setWidth 64) s)
      | none => .fault .unwrittenIdx
    else .next (raise .notSeeded s)
  | some .cfgBits => .next (respond .ok (s.cfg.bits.setWidth 64) s)
  | some .cfgMax => .next (respond .ok s.cfg.max s)
  | none => .next (raise .illegalCmd s)

end Sys2Proof.Machine
end

