-- ==== Sys2Proof/Machine/Engine.lean ====
section
/-! DEFINITION. The TwisterEngine's functions (41_twister.md R121 to R131), literally, in place and in ascending order. -/

namespace Sys2Proof.Machine

/-! The fixed sizes and literals of the engine, each as the spec gives it (00_scope.md R7, 91_not_in_source.md N6). -/

/-- N_WORDS, the size of the state array. -/
def nWords : Nat := 624

/-- HALF, the IDX value that triggers the half refill. -/
def half : Nat := 312

/-- The twist's upper mask. -/
def upperMask : Word := 0xFFFFFFFF80000000

/-- The twist's lower mask. -/
def lowerMask : Word := 0x000000007FFFFFFF

/-- The twist matrix constant. -/
def matrixConst : Word := 0xB5026F5AA96619E9

/-- The initialisation multiplier. -/
def initMultiplier : Word := 6364136223846793005

/-- The out-of-range sentinel of SafeRead. -/
def sentinel : Word := 0x5555555555555555

/-- The tempering mask of the shift by 29. -/
def temperMask29 : Word := 0x5555555555555555

/-- The tempering mask of the shift by 17. -/
def temperMask17 : Word := 0x71D67FFFEDA60000

/-- The tempering mask of the shift by 37. -/
def temperMask37 : Word := 0xFFF7EEE000000000

/-- One step of the initialisation recurrence: `(curr ^ (curr >> 62)) * multiplier + i` (R121). -/
def initStep (curr : Word) (i : Nat) : Word :=
  (curr ^^^ (curr >>> 62)) * initMultiplier + BitVec.ofNat 64 i

/-- The words the initialisation loop writes from index `i` on, `count` of them, `curr` carried forward (R121). The
loop writes each index once and in order, so the array it leaves is this list. -/
def initWordsFrom : Nat → Nat → Word → Words
  | 0, _, _ => []
  | count + 1, i, curr => some (initStep curr i) :: initWordsFrom count (i + 1) (initStep curr i)

/-- WORDS after `Initialize(seed)` (R121): the seed, 312 words of the recurrence, and 311 elements `unwritten`. -/
def initWords (seed : Word) : Words := some seed :: (initWordsFrom 312 1 seed ++ List.replicate 311 none)

/-- `Initialize(seed)` (R121): IDX starts at 312. -/
def initEngine (seed : Word) : Engine := { words := initWords seed, idx := some 312, seeded := true }

/-- `Twist(u, v)` (R124). -/
def twist (u v : Word) : Word :=
  let z := (u &&& upperMask) ||| (v &&& lowerMask)
  if z.getLsbD 0 then (z >>> 1) ^^^ matrixConst else z >>> 1

/-- `SafeRead(i)` (R125): WORDS[i] for i < 624, else the sentinel, which reads no storage. -/
def safeRead (ws : Words) (i : Nat) : Except Fault Word :=
  if i < nWords then readWord ws i else .ok sentinel

/-- `Temper(x)` (R126), each step on the x of the step before. -/
def temper (x : Word) : Word :=
  let x := x ^^^ ((x >>> 29) &&& temperMask29)
  let x := x ^^^ ((x <<< 17) &&& temperMask17)
  let x := x ^^^ ((x <<< 37) &&& temperMask37)
  x ^^^ (x >>> 43)

/-- `m ^ Twist(u, v)` of three reads, or the first fault among them. -/
def mixReads (m u v : Except Fault Word) : Except Fault Word :=
  match m, u, v with
  | .ok m, .ok u, .ok v => .ok (m ^^^ twist u v)
  | .error f, _, _ => .error f
  | .ok _, .error f, _ => .error f
  | .ok _, .ok _, .error f => .error f

/-- `WORDS[k] <- m ^ Twist(u, v)`, the reads made before the write. -/
def storeMix (ws : Words) (k : Nat) (m u v : Except Fault Word) : Except Fault Words :=
  match mixReads m u v with
  | .ok w => .ok (writeWord ws k w)
  | .error f => .error f

/-- Iteration i of HalfRefill: `WORDS[i + 311] <- WORDS[i + 155] ^ Twist(WORDS[i - 1], WORDS[i])` (R127). -/
def halfBody (i : Nat) (ws : Words) : Except Fault Words :=
  storeMix ws (i + 311) (readWord ws (i + 155)) (readWord ws (i - 1)) (readWord ws i)

/-- HalfRefill (R127): i from 1 to 312. -/
def halfRefill (ws : Words) : Except Fault Words := forWords halfBody 312 1 ws

/-- Iteration k of the full refill's first loop (R128). -/
def fullBody1 (k : Nat) (ws : Words) : Except Fault Words :=
  storeMix ws k (safeRead ws (k + 468)) (readWord ws (k + 312)) (safeRead ws (k + 313))

/-- Iteration k of the full refill's second loop (R128). -/
def fullBody2 (k : Nat) (ws : Words) : Except Fault Words :=
  storeMix ws k (readWord ws (k - 156)) (readWord ws (k + 312)) (safeRead ws (k + 313))

/-- The full refill's last statement: `WORDS[311] <- WORDS[155] ^ Twist(WORDS[623], WORDS[0])` (R128). -/
def fullLast (ws : Words) : Except Fault Words :=
  storeMix ws 311 (readWord ws 155) (readWord ws 623) (readWord ws 0)

/-- FullRefillAndReset's writes to WORDS (R128): k from 1 to 156, then from 157 to 311, then the last statement. Its
`IDX <- 0` is in `refill`. -/
def fullRefill (ws : Words) : Except Fault Words :=
  match forWords fullBody1 156 1 ws with
  | .error f => .error f
  | .ok ws1 =>
    match forWords fullBody2 155 157 ws1 with
    | .error f => .error f
    | .ok ws2 => fullLast ws2

/-- What NextWord does before its read (R131): PRIMED runs HalfRefill and leaves IDX; EXHAUSTED runs FullRefillAndReset
and sets IDX to 0; NORMAL refills nothing (10_state.md R23). -/
def refill (idx : BitVec 10) (ws : Words) : Except Fault (BitVec 10 × Words) :=
  if idx.toNat = half then
    match halfRefill ws with
    | .ok ws' => .ok (idx, ws')
    | .error f => .error f
  else if nWords ≤ idx.toNat then
    match fullRefill ws with
    | .ok ws' => .ok (0, ws')
    | .error f => .error f
  else .ok (idx, ws)

/-- `NextWord()` (R131): the tempered word and the engine after it. -/
def nextWord (e : Engine) : Except Fault (Word × Engine) :=
  match e.idx with
  | none => .error .unwrittenIdx
  | some idx =>
    match refill idx e.words with
    | .error f => .error f
    | .ok (idx', ws) =>
      match readWord ws idx'.toNat with
      | .error f => .error f
      | .ok x => .ok (temper x, { words := ws, idx := some (idx' + 1), seeded := e.seeded })

end Sys2Proof.Machine
end

