-- ==== Sys2Proof/Machine/Sampler.lean ====
section
/-! DEFINITION. The RangeSampler: CFGW, DRAW and the DRAW micro-steps (42_range_sampler.md R160 to R171). -/

namespace Sys2Proof.Machine

/-- CFGW (R160). -/
def execCfgw (bits : BitVec 7) (max : Word) (s : State) : Host.Outcome State Fault Refusal :=
  if legalBits bits then .next (respond .ok 0 (setCfg bits max s)) else .next (raise .configError s)

/-- Micro-step START (R163). ACC_V and ACC_D keep what they hold until ATTEMPT. -/
def drawStart (range : Nat) (low : BitVec 32) (s : State) : State :=
  setDraw { s.draw with busy := true, range := some (BitVec.ofNat 33 range), low := some low, used := some 0
                        micro := .attempt } s

/-- DRAW (R161): the command-level part, in the fault order of 60_exceptions.md R207, and START. The response comes
from the micro-steps that follow. -/
def execDraw (low high : BitVec 32) (s : State) : Host.Outcome State Fault Refusal :=
  if s.engine.seeded then
    if high.toNat < low.toNat then .next (raise .invalidRange s)
    else if drawRange low high ≤ 1 then .next (respond .ok (low.setWidth 64) s)
    else .next (drawStart (drawRange low high) low s)
  else .next (raise .notSeeded s)

/-- Micro-step ATTEMPT (R164). -/
def drawAttempt (s : State) : State := setDraw { s.draw with accV := some 0, accD := some 0, micro := .test } s

/-- Micro-step TEST (R165): shift both accumulators and fetch, or evaluate. -/
def drawTest (s : State) : State :=
  if (readAccD s).toNat < (readRange s).toNat - 1 then
    setDraw { s.draw with accV := some (readAccV s <<< s.cfg.bits.toNat)
                          accD := some (readAccD s <<< s.cfg.bits.toNat), micro := .fetch } s
  else setDraw { s.draw with micro := .eval } s

/-- Micro-step EXHAUST (R170): the words consumed stay consumed. -/
def drawExhaust (s : State) : State := raise .samplingExhausted (setDraw { s.draw with busy := false } s)

/-- FETCH after its NextWord (R166): count the word; discard it if it is above CFG_MAX, else OR it, whole, into ACC_V and
CFG_MAX into ACC_D. -/
def drawTake (raw : Word) (s : State) : State :=
  if s.cfg.max.toNat < raw.toNat then setDraw { s.draw with used := some (readUsed s + 1), micro := .fetch } s
  else setDraw { s.draw with used := some (readUsed s + 1), accV := some (readAccV s ||| raw.setWidth 96)
                             accD := some (readAccD s ||| s.cfg.max.setWidth 96), micro := .test } s

/-- Micro-step FETCH (R166), under any DRAW_WORD_CAP. -/
def drawFetch (p : Config.Params) (s : State) : Host.Outcome State Fault Refusal :=
  if p.drawWordCap = some (readUsed s) then .next (drawExhaust s)
  else
    match nextWord s.engine with
    | .ok (raw, e) => .next (drawTake raw (setEngine e s))
    | .error f => .fault f

/-- EVAL's acceptance (R167): `qValue < qDomain`, or the edge test. -/
def drawAccepts (v d range : Nat) : Bool :=
  decide (v / range < d / range) || (decide (d % range = range - 1) && decide (d >>> 32 = 0))

/-- The result of an accepted attempt: `(ACC_V mod D_RANGE) + D_LOW`, a u32 (R167, R169). -/
def drawResult (v range : Nat) (low : BitVec 32) : BitVec 32 := BitVec.ofNat 32 (v % range + low.toNat)

/-- Micro-step FINISH (R171): the accumulators, D_RANGE, D_LOW and D_USED keep their last values. -/
def drawFinish (result : BitVec 32) (s : State) : State :=
  respond .ok (result.setWidth 64) (setDraw { s.draw with busy := false } s)

/-- Micro-step EVAL (R167): finish, or restart the attempt. -/
def drawEval (s : State) : State :=
  if drawAccepts (readAccV s).toNat (readAccD s).toNat (readRange s).toNat then
    drawFinish (drawResult (readAccV s).toNat (readRange s).toNat (readLow s)) s
  else setDraw { s.draw with micro := .attempt } s

/-- One micro-step of the DRAW in progress. -/
def microStep (p : Config.Params) (s : State) : Host.Outcome State Fault Refusal :=
  match s.draw.micro with
  | .attempt => .next (drawAttempt s)
  | .test => .next (drawTest s)
  | .fetch => drawFetch p s
  | .eval => .next (drawEval s)

end Sys2Proof.Machine
end

