-- ==== Sys2Proof/Machine/Twister.lean ====
section
/-! DEFINITION. The TwisterEngine's commands: SEED, SEEDH and NEXT (41_twister.md R122, R123, R132). -/

namespace Sys2Proof.Machine

/-- SEED (R122). -/
def execSeed (seed : Word) (s : State) : Host.Outcome State Fault Refusal :=
  .next (respond .ok seed (setEngine (initEngine seed) s))

/-- SEEDH (R123): the seed is HASH, whatever HASH_TERM is. -/
def execSeedh (s : State) : Host.Outcome State Fault Refusal :=
  .next (respond .ok s.hash.value (setEngine (initEngine s.hash.value) s))

/-- NEXT (R132). -/
def execNext (s : State) : Host.Outcome State Fault Refusal :=
  if s.engine.seeded then
    match nextWord s.engine with
    | .ok (w, e) => .next (respond .ok w (setEngine e s))
    | .error f => .fault f
  else .next (raise .notSeeded s)

end Sys2Proof.Machine
end

