-- ==== Sys2Proof/Machine/Dispatch.lean ====
section
/-! DEFINITION. The meaning of every command, by one arm per constructor. A command is executed on an idle block that
has accepted its packet; the sequencer (Machine/Sequencer.lean) sees to that. -/

namespace Sys2Proof.Machine

def exec (i : Instr) (s : State) : Host.Outcome State Fault Refusal :=
  match i with
  | .hclr => Sys2Proof.Machine.execHclr s
  | .hbyte imm8 => Sys2Proof.Machine.execHbyte imm8 s
  | .seed seed => Sys2Proof.Machine.execSeed seed s
  | .seedh => Sys2Proof.Machine.execSeedh s
  | .next => Sys2Proof.Machine.execNext s
  | .cfgw bits max => Sys2Proof.Machine.execCfgw bits max s
  | .draw low high => Sys2Proof.Machine.execDraw low high s
  | .rdreg reg => Sys2Proof.Machine.execRdreg reg s

end Sys2Proof.Machine
end

