-- ==== Sys2Proof/Machine/Sequencer.lean ====
section
/-! DEFINITION. The command sequencer and the ports (30_encoding.md R71, 70_reset_and_hazards.md R250): the host's move,
reset, taking a response, accepting a packet, and which of these the block does next. -/

namespace Sys2Proof.Machine

/-- `cmd_ready` (30_encoding.md R71): 1 only when the block is idle, BUSY = 0 and RSP_VALID = 0. Between steps no other
command is executing: every command but a DRAW runs whole in the step that accepts it. It does not look at `rst`: what
`cmd_ready` reads while `rst` is asserted is left open (70_reset_and_hazards.md R240 gives it after release) and is the
model's choice (DESIGN CHOICE, log entry 22); no packet is accepted then (log entry 8). -/
def cmdReady (s : State) : Bool := !s.draw.busy && !s.rsp.valid

/-- `rsp_valid`, `rsp_status`, `rsp_data` (R71), the response register; `none` while unwritten. -/
def rspPort (s : State) : Bool × Option (BitVec 4) × Option Word := (s.rsp.valid, s.rsp.status, s.rsp.data)

/-- The host's next move, made before the block's: its pins stay, or are driven anew. With no move to come they stay. -/
def hostMove (s : State) : State :=
  match s.host.schedule with
  | [] => s
  | .hold :: rest => setHost { pins := s.host.pins, schedule := rest } s
  | .drive pins :: rest => setHost { pins := pins, schedule := rest } s

/-- The packet offered is accepted: the offer is over (R71). -/
def accept (s : State) : State := setHost { s.host with pins := { s.host.pins with cmd := none } } s

/-- An accepted packet runs its command; an ILLEGAL one raises ILLEGAL_CMD (30_encoding.md R74, 60_exceptions.md R204). -/
def runPacket (p : Packet) (s : State) : Host.Outcome State Fault Refusal :=
  match decode p with
  | .ok i => exec i s
  | .error _ => .next (raise .illegalCmd s)

/-- The block's move on its pins: reset before all else (70_reset_and_hazards.md R240, R241); a response taken where
`rsp_valid` and `rsp_ready` are both 1; a micro-step of a DRAW in progress; a packet accepted where `cmd_valid` and
`cmd_ready` are both 1 (30_encoding.md R71); else nothing (R250, 60_exceptions.md R219). -/
def blockMove (s : State) : Host.Outcome State Fault Refusal :=
  if s.host.pins.rst then .next (resetBlock s)
  else if s.rsp.valid && s.host.pins.rspReady then .next (setRspValid false s)
  else if s.draw.busy then microStep thisHardware s
  else if s.rsp.valid then .next s
  else
    match s.host.pins.cmd with
    | some p => runPacket p (accept s)
    | none => .next s

/-- One step: the host's move, then the block's (log entry 8). -/
def sequencerStep (s : State) : Host.Outcome State Fault Refusal := blockMove (hostMove s)

/-- The host offers packet `p` to an idle block and has no other move to make, so that the very next step accepts and
runs it. On a block that is reset, busy or holds a response it also ends that (log entry 9). -/
def offerNext (p : Packet) (s : State) : State :=
  { s with host := { pins := { s.host.pins with rst := false, cmd := some p }, schedule := [] }
           draw := { s.draw with busy := false }
           rsp := { s.rsp with valid := false } }

end Sys2Proof.Machine
end

