-- ==== Sys2Proof/Machine/Step.lean ====
section
/-! DEFINITION. One step of the machine, and how the host of this row places an instruction. -/

namespace Sys2Proof.Machine

/-- One step: the host's move, then the block's move (Machine/Sequencer.lean). -/
def step (s : State) : Host.Outcome State Fault Refusal := sequencerStep s

/-- `s` with the table word's packet offered on the command port, so that the next step accepts and runs it. -/
def State.withFetchWord (s : State) (nbits w : Nat) : State := offerNext (tablePacket nbits w) s

end Sys2Proof.Machine
end

