-- ==== Sys2Proof/Machine/Assembler.lean ====
section
/-! DEFINITION. The assembler syntax of 30_encoding.md R83, the packet's spellings, and the pseudo-instructions of R84.
Tooling: no step of the machine uses it. Text is a list of characters. What R83 leaves to the reader of a line (blanks,
letter case, the escapes of a string) is in log entry 16. -/

namespace Sys2Proof.Machine

/-- A line of assembly after parsing, its operands natural numbers not yet checked against their fields (R83, R84). -/
inductive AsmLine where
  | hclr
  | hbyte (imm8 : Nat)
  | seed (imm64 : Nat)
  | seedh
  | next
  | cfgw (bits max : Nat)
  | draw (low high : Nat)
  | rdreg (reg : Nat)
  | hstr (bytes : List (BitVec 8))
  | seedstr (bytes : List (BitVec 8))
  | cfgref
  | rdstatus
  | rdhash
  | rdidx
  | rdbits
  | rdmax
  deriving DecidableEq, Repr

/-- Every operand is in its field's range (R83). -/
def asmInRange : AsmLine → Bool
  | .hbyte imm8 => decide (imm8 < 2 ^ 8)
  | .seed imm64 => decide (imm64 < 2 ^ 64)
  | .cfgw bits max => decide (bits < 2 ^ 7) && decide (max < 2 ^ 64)
  | .draw low high => decide (low < 2 ^ 32) && decide (high < 2 ^ 32)
  | .rdreg reg => decide (reg < 2 ^ 8)
  | _ => true

/-- `HSTR`: HCLR, then one HBYTE per byte in order; no terminator is sent (R84). -/
def hashString (bytes : List (BitVec 8)) : List Instr := .hclr :: bytes.map .hbyte

/-- The commands a line stands for, its operands in range (R83, R84). -/
def asmCommands : AsmLine → List Instr
  | .hclr => [.hclr]
  | .hbyte imm8 => [.hbyte (BitVec.ofNat 8 imm8)]
  | .seed imm64 => [.seed (BitVec.ofNat 64 imm64)]
  | .seedh => [.seedh]
  | .next => [.next]
  | .cfgw bits max => [.cfgw (BitVec.ofNat 7 bits) (BitVec.ofNat 64 max)]
  | .draw low high => [.draw (BitVec.ofNat 32 low) (BitVec.ofNat 32 high)]
  | .rdreg reg => [.rdreg (BitVec.ofNat 8 reg)]
  | .hstr bytes => hashString bytes
  | .seedstr bytes => hashString bytes ++ [.seedh]
  | .cfgref => [.cfgw 64 0xFFFFFFFFFFFFFFFF]
  | .rdstatus => [.rdreg 0]
  | .rdhash => [.rdreg 1]
  | .rdidx => [.rdreg 2]
  | .rdbits => [.rdreg 3]
  | .rdmax => [.rdreg 4]

/-- A line's commands, or an assembly error: an operand outside its field's range is never truncated (R83). -/
def assembleLine (l : AsmLine) : Option (List Instr) := if asmInRange l then some (asmCommands l) else none

/-! Reading a line. -/

/-- A token of a line. -/
inductive AsmToken where
  | ident (name : List Char)
  | num (n : Nat)
  /-- A character literal, one character between apostrophes and no escape (log entry 21). -/
  | chr (c : Char)
  | str (bytes : List (BitVec 8))
  | comma
  deriving DecidableEq, Repr

/-- The value of a hexadecimal digit. -/
def hexVal (c : Char) : Option Nat :=
  if 48 ≤ c.toNat ∧ c.toNat ≤ 57 then some (c.toNat - 48)
  else if 65 ≤ c.toNat ∧ c.toNat ≤ 70 then some (c.toNat - 55)
  else if 97 ≤ c.toNat ∧ c.toNat ≤ 102 then some (c.toNat - 87)
  else none

/-- The number of a run of digits in a base, `acc` the value of those before it. -/
def digitsValue (base : Nat) : Nat → List Char → Option Nat
  | acc, [] => some acc
  | acc, c :: cs =>
    match hexVal c with
    | some d => if d < base then digitsValue base (acc * base + d) cs else none
    | none => none

/-- A number: decimal, or hexadecimal after `0x` (R83). -/
def readNumber : List Char → Option Nat
  | '0' :: 'x' :: d :: ds => digitsValue 16 0 (d :: ds)
  | d :: ds => digitsValue 10 0 (d :: ds)
  | [] => none

/-- Letters, digits and underscore, the characters of a mnemonic, a register name or a number. -/
def isWordChar (c : Char) : Bool := c.isAlphanum || c == '_'

/-- The bytes of one character of a string's text: its UTF-8 bytes (PRESUMED, log entry 16). -/
def charBytes (c : Char) : List (BitVec 8) := (String.utf8EncodeChar c).map (fun b => BitVec.ofNat 8 b.toNat)

/-- The bytes of a string up to its closing quote (character 34), with the escapes `\xHH` and `\0` of R84 (a backslash is
character 92), and the text after the quote. -/
def lexString : Nat → List Char → Option (List (BitVec 8) × List Char)
  | 0, _ => none
  | _, [] => none
  | fuel + 1, c :: cs =>
    if c.toNat = 34 then some ([], cs)
    else if c.toNat = 92 then
      match cs with
      | 'x' :: h :: l :: rest =>
        match digitsValue 16 0 [h, l], lexString fuel rest with
        | some b, some (bs, after) => some (BitVec.ofNat 8 b :: bs, after)
        | _, _ => none
      | '0' :: rest =>
        match lexString fuel rest with
        | some (bs, after) => some (0 :: bs, after)
        | none => none
      | _ => none
    else
      match lexString fuel cs with
      | some (bs, after) => some (charBytes c ++ bs, after)
      | none => none

/-- The tokens of a line; a `;` starts a comment (R83). An apostrophe is character 39. -/
def lexLine : Nat → List Char → Option (List AsmToken)
  | 0, _ => none
  | _, [] => some []
  | fuel + 1, c :: cs =>
    if c = ' ' ∨ c.toNat = 9 then lexLine fuel cs
    else if c = ';' then some []
    else if c = ',' then (lexLine fuel cs).map (.comma :: ·)
    else if c.toNat = 34 then
      match lexString (cs.length + 1) cs with
      | some (bytes, rest) => (lexLine fuel rest).map (.str bytes :: ·)
      | none => none
    else if c.toNat = 39 then
      match cs with
      | x :: q :: rest => if q.toNat = 39 then (lexLine fuel rest).map (.chr x :: ·) else none
      | _ => none
    else if isWordChar c then
      let word := c :: cs.takeWhile isWordChar
      let rest := cs.dropWhile isWordChar
      if c.isDigit then
        match readNumber word with
        | some n => (lexLine fuel rest).map (.num n :: ·)
        | none => none
      else (lexLine fuel rest).map (.ident word :: ·)
    else none

/-- The number of a register name (R83). -/
def registerNumber (name : List Char) : Option Nat :=
  if name = ['S', 'T', 'A', 'T', 'U', 'S'] then some 0
  else if name = ['H', 'A', 'S', 'H'] then some 1
  else if name = ['I', 'D', 'X'] then some 2
  else if name = ['C', 'F', 'G', '_', 'B', 'I', 'T', 'S'] then some 3
  else if name = ['C', 'F', 'G', '_', 'M', 'A', 'X'] then some 4
  else none

/-- A line of one word (R83, R84). -/
def parseNoOperand (m : List Char) : Option AsmLine :=
  if m = ['H', 'C', 'L', 'R'] then some .hclr
  else if m = ['S', 'E', 'E', 'D', 'H'] then some .seedh
  else if m = ['N', 'E', 'X', 'T'] then some .next
  else if m = ['C', 'F', 'G', 'R', 'E', 'F'] then some .cfgref
  else if m = ['R', 'D', 'S', 'T', 'A', 'T', 'U', 'S'] then some .rdstatus
  else if m = ['R', 'D', 'H', 'A', 'S', 'H'] then some .rdhash
  else if m = ['R', 'D', 'I', 'D', 'X'] then some .rdidx
  else if m = ['R', 'D', 'B', 'I', 'T', 'S'] then some .rdbits
  else if m = ['R', 'D', 'M', 'A', 'X'] then some .rdmax
  else none

/-- A line of one operand (R83, R84). A character literal is HBYTE's operand and stands for the character's code point,
checked against the byte's range as any number is: R83 says `its byte value` and no more (DESIGN CHOICE, log entry 21). -/
def parseOneOperand (m : List Char) : AsmToken → Option AsmLine
  | .num n =>
    if m = ['H', 'B', 'Y', 'T', 'E'] then some (.hbyte n)
    else if m = ['S', 'E', 'E', 'D'] then some (.seed n)
    else if m = ['R', 'D', 'R', 'E', 'G'] then some (.rdreg n)
    else none
  | .chr c => if m = ['H', 'B', 'Y', 'T', 'E'] then some (.hbyte c.toNat) else none
  | .ident name => if m = ['R', 'D', 'R', 'E', 'G'] then (registerNumber name).map .rdreg else none
  | .str bytes =>
    if m = ['H', 'S', 'T', 'R'] then some (.hstr bytes)
    else if m = ['S', 'E', 'E', 'D', 'S', 'T', 'R'] then some (.seedstr bytes)
    else none
  | .comma => none

/-- A line of two operands (R83). -/
def parseTwoOperands (m : List Char) (x y : Nat) : Option AsmLine :=
  if m = ['C', 'F', 'G', 'W'] then some (.cfgw x y)
  else if m = ['D', 'R', 'A', 'W'] then some (.draw x y)
  else none

/-- A line's tokens: the mnemonic and its comma-separated operands (R83). -/
def parseTokens : List AsmToken → Option AsmLine
  | [.ident m] => parseNoOperand m
  | [.ident m, a] => parseOneOperand m a
  | [.ident m, .num x, .comma, .num y] => parseTwoOperands m x y
  | _ => none

/-- The commands of one line of text; a blank or comment line has none. -/
def assembleText (line : List Char) : Option (List Instr) :=
  match lexLine (line.length + 1) line with
  | some [] => some []
  | some ts =>
    match parseTokens ts with
    | some l => assembleLine l
    | none => none
  | none => none

/-- The commands of a program, one line each (R83). -/
def assembleLines : List (List Char) → Option (List Instr)
  | [] => some []
  | l :: ls =>
    match assembleText l, assembleLines ls with
    | some is, some rest => some (is ++ rest)
    | _, _ => none

/-! The packet's spellings (R83). -/

/-- A hexadecimal digit. -/
def hexChar (n : Nat) : Char := if n < 10 then Char.ofNat (48 + n) else Char.ofNat (55 + n)

/-- The low `n` hexadecimal digits of a number, most significant first. -/
def hexDigits : Nat → Nat → List Char
  | 0, _ => []
  | n + 1, x => hexChar (x / 16 ^ n % 16) :: hexDigits n x

/-- The packet as 34 hexadecimal digits `{B, A, OP}`. -/
def packetHex (p : Packet) : List Char := hexDigits 34 p.toNat

/-- The packet as `OP/A/B`. -/
def packetFields (p : Packet) : List Char :=
  hexDigits 2 (opOf p).toNat ++ '/' :: hexDigits 16 (aOf p).toNat ++ '/' :: hexDigits 16 (bOf p).toNat

/-- The packet of 34 hexadecimal digits. -/
def readPacketHex (cs : List Char) : Option Packet :=
  if cs.length = 34 then (digitsValue 16 0 cs).map (BitVec.ofNat 136) else none

/-- The packet of `OP/A/B` with 2, 16 and 16 hexadecimal digits. -/
def readPacketFields (cs : List Char) : Option Packet :=
  if cs.length = 36 ∧ cs[2]? = some '/' ∧ cs[19]? = some '/' then
    match digitsValue 16 0 (cs.take 2), digitsValue 16 0 ((cs.drop 3).take 16), digitsValue 16 0 (cs.drop 20) with
    | some op, some a, some b => some (packet (BitVec.ofNat 8 op) (BitVec.ofNat 64 a) (BitVec.ofNat 64 b))
    | _, _, _ => none
  else none

end Sys2Proof.Machine
end

