-- ==== Sys2Proof/Safety.lean ====
section
/-! DEFINITION. What counts as a sound state of the block, the terms in which claims about whole runs are stated, and the
sampler's loop as one function. -/

namespace Sys2Proof

open Sys2Proof.Machine

/-- The first `n` elements of the state array hold values (41_twister.md R140). -/
def Written (n : Nat) (ws : Words) : Prop := ∀ i, i < n → ∃ w, ws[i]? = some (some w)

/-- IDX holds a value of 0..624 once SEEDED = 1 (10_state.md R24). -/
def IdxInRange (e : Engine) : Prop := e.seeded = true → ∃ v, e.idx = some v ∧ v.toNat ≤ 624

/-- The engine as every command leaves it (41_twister.md R140): 624 elements; unseeded, it holds no value; seeded, IDX is
in range, WORDS[0..312] are written, and all 624 are unless IDX = 312. -/
structure EngineInv (e : Engine) : Prop where
  size : e.words.length = 624
  unseeded : e.seeded = false → e.idx = none ∧ ∀ w ∈ e.words, w = none
  seeded : e.seeded = true → ∃ v, e.idx = some v ∧ v.toNat ≤ 624 ∧ Written 313 e.words ∧
    (v.toNat ≠ 312 → Written 624 e.words)

/-- CFG_BITS is legal (10_state.md R28). -/
def CfgInv (c : SamplerCfg) : Prop := 1 ≤ c.bits.toNat ∧ c.bits.toNat ≤ 64

/-- The error record (10_state.md R32, R33): LAST_ERR is 0 until a fault and one of the codes 1..5 after it. -/
def ErrInv (e : ErrorRecord) : Prop :=
  (e.sticky = false → e.last = 0) ∧ (e.sticky = true → 1 ≤ e.last.toNat ∧ e.last.toNat ≤ 5)

/-- The response register (10_state.md R36): a response that waits has a status of 0..5 (30_encoding.md R81), and data 0
where the status is not OK (R82). -/
def RspInv (r : ResponseReg) : Prop :=
  r.valid = true → ∃ c d, r.status = some c ∧ r.data = some d ∧ c.toNat ≤ 5 ∧ (c ≠ 0 → d = 0)

/-- What holds of a DRAW in progress (42_range_sampler.md R163 to R169): no response waits, the engine is seeded, the range
is 2..2^32 and ends at a 32-bit `high`, and from ATTEMPT on the accumulators hold values with ACC_V no longer than ACC_D. -/
def DrawInv (s : State) : Prop :=
  s.draw.busy = true →
    s.rsp.valid = false ∧ s.engine.seeded = true ∧
    ∃ r low used, s.draw.range = some r ∧ s.draw.low = some low ∧ s.draw.used = some used ∧
      2 ≤ r.toNat ∧ low.toNat + r.toNat ≤ 2 ^ 32 ∧
      (s.draw.micro ≠ .attempt → ∃ v d, s.draw.accV = some v ∧ s.draw.accD = some d ∧
        (∀ k, d.toNat < 2 ^ k → v.toNat < 2 ^ k) ∧
        (s.draw.micro = .eval → r.toNat - 1 ≤ d.toNat))

/-- A sound state: what holds at reset and after every step. -/
structure Inv (s : State) : Prop where
  engine : EngineInv s.engine
  cfg : CfgInv s.cfg
  err : ErrInv s.err
  rsp : RspInv s.rsp
  draw : DrawInv s

/-- The host never asserts `rst`, now or in a move to come. -/
def NoReset (h : HostPort) : Prop :=
  h.pins.rst = false ∧ ∀ m ∈ h.schedule, ∀ p, m = .drive p → p.rst = false

/-- The state a command leaves that answers `d` with status OK and changes nothing else (30_encoding.md R80, R82). -/
def answered (d : Word) (s : State) : State := { s with rsp := { valid := true, status := some 0, data := some d } }

/-- The state a command leaves that faults with code `c` (60_exceptions.md R206): the response, ERR_STICKY and LAST_ERR,
and nothing else. -/
def faulted (c : BitVec 4) (s : State) : State :=
  { s with rsp := { valid := true, status := some c, data := some 0 }, err := { sticky := true, last := c } }

/-- The state in which the block moves within `step s`: the host's move is made, `rst` is low, and no response is being
taken. -/
def BlockMovesIn (s h : State) : Prop :=
  h = hostMove s ∧ h.host.pins.rst = false ∧ (h.rsp.valid && h.host.pins.rspReady) = false

/-- Commands executed one after the other, each on the state the one before left (70_reset_and_hazards.md R251). A DRAW
is executed up to its START only. -/
def execSeq : List Instr → State → Host.Outcome State Fault Refusal
  | [], s => .next s
  | i :: is, s =>
    match exec i s with
    | .next t => execSeq is t
    | .fault f => .fault f
    | .refused r => .refused r

/-- `Hash(s)` (40_seed_hash.md R103): the fold of HashStep over the bytes. -/
def hashOf (p : Config.Params) (bytes : List (BitVec 8)) : Word := bytes.foldl (hashStep p) 0

/-- The engine after `n` calls of NextWord, and the words they returned in order. -/
def nextWords : Nat → Engine → Except Fault (List Word × Engine)
  | 0, e => .ok ([], e)
  | n + 1, e =>
    match nextWord e with
    | .error f => .error f
    | .ok (w, e') =>
      match nextWords n e' with
      | .error f => .error f
      | .ok (ws, e'') => .ok (w :: ws, e'')

/-- `DrawLoop` (42_range_sampler.md R162) in unbounded natural numbers, over a given stream of raw words: `v` and `d` are
the accumulators already shifted for the next word. It answers the result and the words left over, or nothing where the
stream ends before the loop does. -/
def drawLoop (bits max range low : Nat) : Nat → Nat → List Nat → Option (Nat × List Nat)
  | _, _, [] => none
  | v, d, raw :: raws =>
    if max < raw then drawLoop bits max range low v d raws
    else
      let v' := v ||| raw
      let d' := d ||| max
      if d' < range - 1 then drawLoop bits max range low (v' <<< bits) (d' <<< bits) raws
      else if drawAccepts v' d' range then some (v' % range + low, raws)
      else drawLoop bits max range low 0 0 raws

end Sys2Proof
end

