-- ==== Sys2Proof/Certificates/Slice0/Obligations.lean ====
section
/-! DEFINITION. The statements for the provers. Each docstring names the rule of spec/ it formalises. -/

open Sys2Proof Sys2Proof.Machine

/-! ## Encoding -/

/-- 30_encoding.md R70, R72, R73, R74: every command, with every operand value, is decoded from its packet. -/
def Obligations.EveryCommandDecodesFromItsPacket : Prop :=
  ∀ i : Instr, decode (encode i) = .ok i

/-- 30_encoding.md R74, R75: a legal packet is the encoding of the command it decodes to, so no bit of it is ignored. -/
def Obligations.LegalPacketIsTheEncodingOfItsCommand : Prop :=
  ∀ (p : Packet) (i : Instr), decode p = .ok i → encode i = p

/-- 30_encoding.md R73, R74 and spec/opcode_table.json: a legal packet is covered by exactly one row, that of its
command; a packet no row covers is rejected. -/
def Obligations.LegalPacketsAreThoseOfOneTableRow : Prop :=
  (∀ (p : Packet) (i : Instr), decode p = .ok i →
    ∃ r ∈ opcodeTable, r.mnemonic = i.mnemonic ∧ r.covers p = true ∧
      ∀ r' ∈ opcodeTable, r'.covers p = true → r' = r) ∧
  (∀ p : Packet, (∀ r ∈ opcodeTable, r.covers p = false) → ∃ e, decode p = .error e)

/-- 30_encoding.md R75, R76: a packet whose OP is a row's and which the row does not cover has a reserved bit set, and is
rejected as such; a packet whose OP is no row's is rejected as unassigned. -/
def Obligations.RejectedPacketsAreNamed : Prop :=
  (∀ r ∈ opcodeTable, ∀ p : Packet, opOf p = opOf r.bits → r.covers p = false →
    decode p = .error (.reservedBits (opOf p))) ∧
  (∀ p : Packet, (∀ r ∈ opcodeTable, opOf p ≠ opOf r.bits) → decode p = .error (.unassignedOp (opOf p)))

/-- 30_encoding.md R70, R72, R73: packets written out from the encoding, one per command, and rejected ones (the packets
of 95_test_vectors.md sections 2.8 and 2.9 and programs P1 to P3). -/
def Obligations.PacketsWrittenOutDecode : Prop :=
  decode 0x0000000000000000000000000000000001 = .ok .hclr ∧
  decode 0x0000000000000000000000000000007002 = .ok (.hbyte 0x70) ∧
  decode 0x0000000000000000000000000000157110 = .ok (.seed 5489) ∧
  decode 0x0000000000000000000000000000000011 = .ok .seedh ∧
  decode 0x0000000000000000000000000000000020 = .ok .next ∧
  decode 0x0000000000000007000000000000004030 = .ok (.cfgw 64 7) ∧
  decode 0x0000000000000064000000000000000140 = .ok (.draw 1 100) ∧
  decode 0x0000000000000000000000000000000250 = .ok (.rdreg 2) ∧
  decode 0x0000000000000000000000000000000003 = .error (.unassignedOp 0x03) ∧
  decode 0x0000000000000000000000000000000120 = .error (.reservedBits 0x20) ∧
  decode 0x0000000000000000000000000000008030 = .error (.reservedBits 0x30)

/-! ## The step and the ports -/

/-- 30_encoding.md R71, R74: on an idle block whose `rst` is low, a step with an offered packet that decodes to command
`i` is `exec i`, well-formed or not, on the state in which the host has made its move (nothing but its pins and moves
changes) and the offer is over (nothing but the offer changes). That one step is the host's move and then the block's, and
that acceptance ends the offer, is the model's choice (log entry 8, DESIGN CHOICE). -/
def Obligations.StepRunsTheDecodedCommand : Prop :=
  (∀ (s : State) (p : Packet) (i : Instr), (hostMove s).host.pins.rst = false → cmdReady (hostMove s) = true →
    (hostMove s).host.pins.cmd = some p → decode p = .ok i → step s = exec i (accept (hostMove s))) ∧
  (∀ s : State, hostMove s = { s with host := (hostMove s).host }) ∧
  (∀ s : State, accept s = { s with host := { s.host with pins := { s.host.pins with cmd := none } } })

/-- 30_encoding.md R71 and log entry 9 (the model's choice): a table word placed by `withFetchWord` is what the next step
runs, on the state as placed with the offer over (log entry 8). -/
def Obligations.PlacedWordRunsNext : Prop :=
  ∀ (s : State) (nbits w : Nat) (i : Instr), decodeTableWord nbits w = some i →
    step (s.withFetchWord nbits w) = exec i (accept (s.withFetchWord nbits w))

/-- 60_exceptions.md R204: ILLEGAL_CMD is raised for an accepted packet whose OP is unassigned or which has a reserved
bit set (each a packet the decoder rejects), and by RDREG of a number outside 0..4; nothing changes besides the code's record,
but for what acceptance does to the host's port: that the host moves first and that acceptance ends the offer, also of a
packet that faults, is the model's choice (log entry 8, DESIGN CHOICE) and no part of R204. -/
def Obligations.IllegalCommandsRaiseIllegalCmd : Prop :=
  (∀ (s : State) (p : Packet) (e : Illegal), (hostMove s).host.pins.rst = false → cmdReady (hostMove s) = true →
    (hostMove s).host.pins.cmd = some p → decode p = .error e →
      step s = .next (faulted 1 (accept (hostMove s)))) ∧
  (∀ (p : Packet), (∀ r ∈ opcodeTable, opOf p ≠ opOf r.bits) → ∃ e, decode p = .error e) ∧
  (∀ (p : Packet), ∀ r ∈ opcodeTable, opOf p = opOf r.bits → r.covers p = false → ∃ e, decode p = .error e) ∧
  (∀ (s : State) (reg : BitVec 8), 4 < reg.toNat → exec (.rdreg reg) s = .next (faulted 1 s))

/-- 70_reset_and_hazards.md R240: `rst` puts every piece of block state at its reset value, whatever was running; and the
machine's first state has the same values. The model's choices in it, no part of R240: `resets` (log entry 4), the
reset value of the micro-step position, which the last clause takes in (log entry 5), that reset leaves the host's pins and
moves (log entry 7), and that `cmd_ready` reads 1 while `rst` is still asserted (log entry 22); R240 gives it after release. -/
def Obligations.ResetLeavesTheStatedValues : Prop :=
  ∀ s : State, (hostMove s).host.pins.rst = true →
    ∃ t, step s = .next t ∧
      t.engine = { words := List.replicate 624 none, idx := none, seeded := false } ∧
      t.hash = { value := 0, term := false } ∧
      t.cfg = { bits := 64, max := 0xFFFFFFFFFFFFFFFF } ∧
      t.err = { sticky := false, last := 0 } ∧
      t.draw.busy = false ∧ t.draw.accV = none ∧ t.draw.accD = none ∧ t.draw.range = none ∧ t.draw.low = none ∧
      t.draw.used = none ∧
      t.rsp = { valid := false, status := none, data := none } ∧
      cmdReady t = true ∧
      t.host = (hostMove s).host ∧
      State.reset = { t with host := State.reset.host, resets := 0 }

/-- 70_reset_and_hazards.md R250, R253: while `cmd_ready` is 0 (a DRAW runs or a response waits) and `rst` is low, an offered packet
is not accepted and stays offered, and a response the host does not take is not lost. -/
def Obligations.OfferWaitsWhileNotReady : Prop :=
  ∀ s t : State, (hostMove s).host.pins.rst = false → cmdReady (hostMove s) = false → step s = .next t →
    t.host = (hostMove s).host ∧
    ((hostMove s).rsp.valid = true → (hostMove s).host.pins.rspReady = false → (hostMove s).draw.busy = false →
      t = hostMove s)

/-- 30_encoding.md R71: `cmd_ready` is 1 exactly when BUSY = 0 and RSP_VALID = 0; and a response is taken when
`rsp_valid` and `rsp_ready` are both 1, which sets RSP_VALID to 0 and changes nothing else. That `cmd_ready` reads so while
`rst` is asserted too is the model's choice (log entry 22). -/
def Obligations.TakingAResponseClearsRspValid : Prop :=
  (∀ s : State, cmdReady s = true ↔ s.draw.busy = false ∧ s.rsp.valid = false) ∧
  (∀ s h : State, h = hostMove s → h.host.pins.rst = false → h.rsp.valid = true → h.host.pins.rspReady = true →
    step s = .next { h with rsp := { h.rsp with valid := false } })

/-- 60_exceptions.md R219, 70_reset_and_hazards.md R253: an idle block with no packet offered (never offered, or withdrawn) keeps all
its state. -/
def Obligations.IdleBlockKeepsItsState : Prop :=
  ∀ s h : State, h = hostMove s → h.host.pins.rst = false → cmdReady h = true → h.host.pins.cmd = none →
    step s = .next h

/-! ## Responses, the error record and faults -/

/-- 30_encoding.md R80, R81: `respond` writes the three response registers, and the error record on a non-zero code only. -/
def Obligations.RespondWritesResponseAndErrorRecord : Prop :=
  (∀ (st : Status) (d : Word) (s : State),
    (respond st d s).rsp = { valid := true, status := some (statusCode st), data := some d } ∧
    (statusCode st ≠ 0 → (respond st d s).err = { sticky := true, last := statusCode st }) ∧
    (statusCode st = 0 → (respond st d s).err = s.err) ∧
    respond st d s = { s with rsp := (respond st d s).rsp, err := (respond st d s).err }) ∧
  statusCode .ok = 0 ∧ statusCode .illegalCmd = 1 ∧ statusCode .notSeeded = 2 ∧ statusCode .invalidRange = 3 ∧
  statusCode .configError = 4 ∧ statusCode .samplingExhausted = 5

/-- 10_state.md R31: RDREG 0 answers STATUS and changes nothing else, and these are the bits of STATUS. -/
def Obligations.StatusWordBits : Prop :=
  ∀ s : State, exec (.rdreg 0) s = .next (answered (statusWord s) s) ∧
    (statusWord s).getLsbD 0 = s.engine.seeded ∧ (statusWord s).getLsbD 1 = s.hash.term ∧
    (statusWord s).getLsbD 2 = s.err.sticky ∧ (statusWord s).getLsbD 3 = false ∧
    (∀ k, k < 4 → (statusWord s).getLsbD (4 + k) = s.err.last.getLsbD k) ∧
    (∀ k, 8 ≤ k → (statusWord s).getLsbD k = false)

/-- 10_state.md R32, R33: a command that ends with a non-zero status sets ERR_STICKY and puts the code in LAST_ERR; one that
ends with OK leaves both; with `rst` low no step clears ERR_STICKY, and none changes either but by such a fault; both are
0 at reset. -/
def Obligations.ErrorRecordFollowsTheStatus : Prop :=
  (∀ (s t : State) (c : BitVec 4), (hostMove s).host.pins.rst = false → step s = .next t → s.rsp.valid = false →
    t.rsp.valid = true → t.rsp.status = some c →
      (c ≠ 0 → t.err = { sticky := true, last := c }) ∧ (c = 0 → t.err = s.err)) ∧
  (∀ s t : State, (hostMove s).host.pins.rst = false → step s = .next t →
    (s.err.sticky = true → t.err.sticky = true) ∧
    (t.err = s.err ∨ ∃ c, c ≠ 0 ∧ t.rsp = { valid := true, status := some c, data := some 0 } ∧
      t.err = { sticky := true, last := c })) ∧
  State.reset.err = { sticky := false, last := 0 }

/-- 60_exceptions.md R206: a faulted command, legal or not, leaves all state as it was but the error record and the response;
SAMPLING_EXHAUSTED, under a DRAW_WORD_CAP, keeps the engine as the DRAW has advanced it and leaves BUSY = 0. -/
def Obligations.FaultedCommandChangesOnlyTheRecord : Prop :=
  (∀ (p : Packet) (s t : State) (c : BitVec 4), runPacket p s = .next t → s.rsp.valid = false → t.rsp.valid = true →
    t.rsp.status = some c → c ≠ 0 → t = faulted c s) ∧
  (∀ (p : Config.Params) (s t : State) (c : BitVec 4), microStep p s = .next t → s.rsp.valid = false →
    t.rsp.valid = true → t.rsp.status = some c → c ≠ 0 →
      c = 5 ∧ t = faulted 5 { s with draw := { s.draw with busy := false } })

/-- 60_exceptions.md R208: the status codes each command can end with, once its packet is legal (a packet that is not ends
with ILLEGAL_CMD); and a DRAW's micro-steps end with OK, or SAMPLING_EXHAUSTED under a cap only. -/
def Obligations.StatusCodesOfEachCommand : Prop :=
  (∀ (i : Instr) (s t : State) (c : BitVec 4), exec i s = .next t → s.rsp.valid = false → t.rsp.valid = true →
    t.rsp.status = some c →
      match i with
      | .hclr => c = 0
      | .hbyte _ => c = 0
      | .seed _ => c = 0
      | .seedh => c = 0
      | .next => c = 0 ∨ c = 2
      | .cfgw _ _ => c = 0 ∨ c = 4
      | .draw _ _ => c = 0 ∨ c = 2 ∨ c = 3
      | .rdreg reg => c = 0 ∨ c = 1 ∨ (c = 2 ∧ reg = 2)) ∧
  (∀ (p : Config.Params) (s t : State) (c : BitVec 4), microStep p s = .next t → s.rsp.valid = false →
    t.rsp.valid = true → t.rsp.status = some c → c = 0 ∨ (c = 5 ∧ p.drawWordCap ≠ none))

/-- 60_exceptions.md R201, R207: on an unseeded engine NEXT, DRAW with any operands (`high` < `low` among them) and RDREG 2 fault
NOT_SEEDED. -/
def Obligations.UnseededEngineFaultsNotSeeded : Prop :=
  ∀ s : State, s.engine.seeded = false →
    exec .next s = .next (faulted 2 s) ∧
    (∀ low high, exec (.draw low high) s = .next (faulted 2 s)) ∧
    exec (.rdreg 2) s = .next (faulted 2 s)

/-- 60_exceptions.md R202, R203: a seeded DRAW with `high` < `low`, as unsigned numbers, faults INVALID_RANGE and consumes no word;
CFGW with `bits` = 0 or `bits` > 64 faults CONFIG_ERROR and leaves the configuration. -/
def Obligations.BadOperandsFaultByName : Prop :=
  (∀ (s : State) (low high : BitVec 32), s.engine.seeded = true → high.toNat < low.toNat →
    exec (.draw low high) s = .next (faulted 3 s)) ∧
  (∀ (s : State) (bits : BitVec 7) (max : Word), bits.toNat = 0 ∨ 64 < bits.toNat →
    exec (.cfgw bits max) s = .next (faulted 4 s))

/-! ## SeedHash -/

/-- 40_seed_hash.md R101: HCLR completes in every state, with HASH and HASH_TERM 0 and response data 0, and changes nothing
else. -/
def Obligations.HclrStartsANewHash : Prop :=
  ∀ s : State, exec .hclr s = .next (answered 0 { s with hash := { value := 0, term := false } })

/-- 40_seed_hash.md R100, R102, R105: HBYTE completes in every state: after the terminator nothing is hashed, a NUL sets HASH_TERM,
any other byte is sign-extended and hashed; the response is HASH after the byte, and nothing else changes. -/
def Obligations.HbyteFeedsOneByte : Prop :=
  ∀ (s : State) (b : BitVec 8),
    (s.hash.term = true → exec (.hbyte b) s = .next (answered s.hash.value s)) ∧
    (s.hash.term = false → b = 0 →
      exec (.hbyte b) s = .next (answered s.hash.value { s with hash := { value := s.hash.value, term := true } })) ∧
    (s.hash.term = false → b ≠ 0 →
      ∃ h, h = b.signExtend 64 + (s.hash.value <<< 6) + (s.hash.value <<< 16) - s.hash.value ∧
        exec (.hbyte b) s = .next (answered h { s with hash := { value := h, term := false } }))

/-- 40_seed_hash.md R104: the step is the sdbm multiply-add, under either value of HASH_SIGNED_BYTES. -/
def Obligations.HashStepIsTheSdbmMultiplyAdd : Prop :=
  ∀ (p : Config.Params) (h : Word) (b : BitVec 8), hashStep p h b = extByte p b + 65599 * h

/-- 40_seed_hash.md R105: with HASH_SIGNED_BYTES a byte ≥ 0x80 enters as `0xFFFFFFFFFFFFFF00 | b`, b − 256 mod 2^64; bytes
0x01..0x7F enter unchanged under either setting. -/
def Obligations.HashByteExtension : Prop :=
  (∀ (p : Config.Params) (b : BitVec 8), p.hashSignedBytes = true → 0x80 ≤ b.toNat →
    extByte p b = 0xFFFFFFFFFFFFFF00 ||| b.setWidth 64 ∧ extByte p b = b.setWidth 64 - 256) ∧
  (∀ (p : Config.Params) (b : BitVec 8), 1 ≤ b.toNat → b.toNat < 0x80 → extByte p b = b.setWidth 64)

/-- 40_seed_hash.md R103: HCLR and then one HBYTE per byte of any byte sequence leave HASH at `Hash` of the bytes before the
first NUL, and HASH_TERM = 1 exactly when there is a NUL; the engine, the configuration and the error record are untouched. -/
def Obligations.HashStreamIsTheFoldOfItsBytes : Prop :=
  (∀ (s : State) (bytes : List (BitVec 8)),
    ∃ t, execSeq (.hclr :: bytes.map .hbyte) s = .next t ∧
      t.hash = { value := hashOf thisHardware (bytes.takeWhile (fun b => b != 0))
                 term := bytes.any (fun b => b == 0) } ∧
      t.engine = s.engine ∧ t.cfg = s.cfg ∧ t.err = s.err ∧ t.draw = s.draw) ∧
  hashOf thisHardware [] = 0

/-! ## TwisterEngine -/

/-- 41_twister.md R121: `Initialize(seed)`: the recurrence's 313 words, 311 elements unwritten, IDX 312, SEEDED 1. -/
def Obligations.InitializeWritesTheRecurrence : Prop :=
  ∀ x : Word, (initEngine x).idx = some 312 ∧ (initEngine x).seeded = true ∧ (initEngine x).words.length = 624 ∧
    (∃ f : Nat → Word, f 0 = x ∧
      (∀ i, i < 312 → f (i + 1) = (f i ^^^ (f i >>> 62)) * 6364136223846793005 + BitVec.ofNat 64 (i + 1)) ∧
      (∀ i, i ≤ 312 → (initEngine x).words[i]? = some (some (f i)))) ∧
    (∀ i, 313 ≤ i → i < 624 → (initEngine x).words[i]? = some none)

/-- 41_twister.md R122: SEED completes in every state with the engine `Initialize(seed)` and the seed as response data, and
changes nothing else. -/
def Obligations.SeedInitialisesTheEngine : Prop :=
  ∀ (s : State) (x : Word), exec (.seed x) s = .next (answered x { s with engine := initEngine x })

/-- 41_twister.md R123: SEEDH completes in every state with the engine `Initialize(HASH)` and HASH as response data, whatever
HASH_TERM is, and changes nothing else. -/
def Obligations.SeedhInitialisesFromHash : Prop :=
  ∀ s : State, exec .seedh s = .next (answered s.hash.value { s with engine := initEngine s.hash.value })

/-- 41_twister.md R124: `Twist(u, v)`; the constant is XORed in exactly when v is odd. -/
def Obligations.TwistSplitsAndMixes : Prop :=
  ∀ u v : Word,
    twist u v = (((u &&& 0xFFFFFFFF80000000) ||| (v &&& 0x000000007FFFFFFF)) >>> 1) ^^^
      (if v.getLsbD 0 then 0xB5026F5AA96619E9 else 0)

/-- 41_twister.md R126: `Temper(x)`, each step on the x of the step before; `Temper(0) = 0`. -/
def Obligations.TemperIsTheFourStepCascade : Prop :=
  (∀ x a b c : Word, a = x ^^^ ((x >>> 29) &&& 0x5555555555555555) → b = a ^^^ ((a <<< 17) &&& 0x71D67FFFEDA60000) →
    c = b ^^^ ((b <<< 37) &&& 0xFFF7EEE000000000) → temper x = c ^^^ (c >>> 43)) ∧
  temper 0 = 0

/-- 41_twister.md R127, R129: HalfRefill on an array of 624 whose first 313 elements are written completes, leaves
WORDS[0..311], and in the array it leaves every WORDS[i + 311], i from 1 to 312, is
`WORDS[i + 155] ^ Twist(WORDS[i - 1], WORDS[i])`. -/
def Obligations.HalfRefillWritesTheUpperHalf : Prop :=
  ∀ ws : Words, ws.length = 624 → Written 313 ws →
    ∃ ws', halfRefill ws = .ok ws' ∧ ws'.length = 624 ∧ (∀ j, j < 312 → ws'[j]? = ws[j]?) ∧
      ∀ i, 1 ≤ i → i ≤ 312 →
        ∃ m u v, ws'[i + 155]? = some (some m) ∧ ws'[i - 1]? = some (some u) ∧ ws'[i]? = some (some v) ∧
          ws'[i + 311]? = some (some (m ^^^ twist u v))

/-- 41_twister.md R125, R128, R130: FullRefillAndReset on 624 written elements completes, leaves WORDS[0] and WORDS[312..623],
and gives every WORDS[k], k from 1 to 311, the value of R128, the sentinel standing for index 624 at k = 156. -/
def Obligations.FullRefillWritesTheLowerHalf : Prop :=
  ∀ ws : Words, ws.length = 624 → Written 624 ws →
    ∃ ws', fullRefill ws = .ok ws' ∧ ws'.length = 624 ∧ ws'[0]? = ws[0]? ∧
      (∀ j, 312 ≤ j → ws'[j]? = ws[j]?) ∧
      (∀ k, 1 ≤ k → k ≤ 155 →
        ∃ m u v, ws'[k + 468]? = some (some m) ∧ ws'[k + 312]? = some (some u) ∧ ws'[k + 313]? = some (some v) ∧
          ws'[k]? = some (some (m ^^^ twist u v))) ∧
      (∃ u v, ws'[468]? = some (some u) ∧ ws'[469]? = some (some v) ∧
        ws'[156]? = some (some (0x5555555555555555 ^^^ twist u v))) ∧
      (∀ k, 157 ≤ k → k ≤ 310 →
        ∃ m u v, ws'[k - 156]? = some (some m) ∧ ws'[k + 312]? = some (some u) ∧ ws'[k + 313]? = some (some v) ∧
          ws'[k]? = some (some (m ^^^ twist u v))) ∧
      (∃ m u v, ws'[155]? = some (some m) ∧ ws'[623]? = some (some u) ∧ ws'[0]? = some (some v) ∧
        ws'[311]? = some (some (m ^^^ twist u v)))

/-- 41_twister.md R131, R132: NEXT on a seeded engine completes and changes only the engine and the response. NORMAL: it answers
the tempered WORDS[IDX] and leaves WORDS. PRIMED: it runs HalfRefill and answers the tempered WORDS[312]. EXHAUSTED: it
runs FullRefillAndReset and answers the tempered WORDS[0]. IDX is one more than the index read. -/
def Obligations.NextAnswersOneTemperedWord : Prop :=
  ∀ (s : State) (v : BitVec 10), s.engine.seeded = true → s.engine.idx = some v → EngineInv s.engine →
    (v.toNat ≠ 312 → v.toNat < 624 →
      ∃ x, s.engine.words[v.toNat]? = some (some x) ∧
        exec .next s = .next (answered (temper x)
          { s with engine := { s.engine with idx := some (BitVec.ofNat 10 (v.toNat + 1)) } })) ∧
    (v.toNat = 312 →
      ∃ ws x, halfRefill s.engine.words = .ok ws ∧ ws[312]? = some (some x) ∧
        exec .next s = .next (answered (temper x) { s with engine := { words := ws, idx := some 313, seeded := true } })) ∧
    (624 ≤ v.toNat →
      ∃ ws x, fullRefill s.engine.words = .ok ws ∧ ws[0]? = some (some x) ∧
        exec .next s = .next (answered (temper x) { s with engine := { words := ws, idx := some 1, seeded := true } }))

/-- 41_twister.md R133, for the calls that NEXT makes after a SEED (`NextWordPeriodicity` says the same of every NextWord
after any seeding): n calls of NEXT after a SEED complete, for every n. IDX after call n is (n + 312) mod 624, or
624 where that is 0; call n reads WORDS[(n + 311) mod 624]; the half refill runs exactly when n ≡ 1 and the full refill
exactly when n ≡ 313 (mod 624), and every other call leaves WORDS. -/
def Obligations.RefillPeriodicity : Prop :=
  ∀ (s : State) (x : Word) (n : Nat),
    ∃ u t : State, execSeq (.seed x :: List.replicate n .next) s = .next u ∧ exec .next u = .next t ∧
      t.engine.idx = some (BitVec.ofNat 10 (if (n + 1 + 312) % 624 = 0 then 624 else (n + 1 + 312) % 624)) ∧
      (∃ w, t.engine.words[(n + 1 + 311) % 624]? = some (some w) ∧ t.rsp.data = some (temper w)) ∧
      ((n + 1) % 624 = 1 → halfRefill u.engine.words = .ok t.engine.words) ∧
      ((n + 1) % 624 = 313 → fullRefill u.engine.words = .ok t.engine.words) ∧
      ((n + 1) % 624 ≠ 1 → (n + 1) % 624 ≠ 313 → t.engine.words = u.engine.words)

/-- 41_twister.md R134: with `rst` low, every step that accepts no SEED or SEEDH leaves WORDS[0], a DRAW's FETCH among them;
any number of calls of NEXT after a SEED completes with WORDS[0] still the seed, so call n ≡ 313 (mod 624) returns
Temper(seed); and so does every NextWord call n ≡ 313 after any seeding, whichever command makes it. -/
def Obligations.SeedWordIsKeptAndReturned : Prop :=
  (∀ s t : State, (hostMove s).host.pins.rst = false →
    (∀ p i, cmdReady (hostMove s) = true → (hostMove s).host.pins.cmd = some p → decode p = .ok i →
      (∀ x, i ≠ .seed x) ∧ i ≠ .seedh) →
    step s = .next t → t.engine.words[0]? = s.engine.words[0]?) ∧
  (∀ (s : State) (x : Word) (n : Nat),
    ∃ t, execSeq (.seed x :: List.replicate n .next) s = .next t ∧ t.engine.words[0]? = some (some x) ∧
      (n % 624 = 313 → t.rsp.data = some (temper x))) ∧
  (∀ (x : Word) (n : Nat),
    ∃ ws e, nextWords n (initEngine x) = .ok (ws, e) ∧ e.words[0]? = some (some x) ∧
      ∀ k, k < n → (k + 1) % 624 = 313 → ws[k]? = some (temper x))

/-- 41_twister.md R136: a seeding makes the words that follow a function of the seed alone; and HCLR, HBYTE, CFGW and RDREG
between calls leave the engine, so they do not change the words produced. -/
def Obligations.WordsDependOnTheSeedAlone : Prop :=
  (∀ (s s' t t' : State) (x : Word), exec (.seed x) s = .next t → exec (.seed x) s' = .next t' →
    ∀ n, nextWords n t.engine = nextWords n t'.engine) ∧
  (∀ (i : Instr) (s t : State), exec i s = .next t →
    (i = .hclr ∨ (∃ b, i = .hbyte b) ∨ (∃ bits max, i = .cfgw bits max) ∨ (∃ reg, i = .rdreg reg)) →
      ∀ n, nextWords n t.engine = nextWords n s.engine)

/-- 10_state.md R24: once SEEDED = 1, IDX ∈ [0, 624]; every step keeps it. -/
def Obligations.IdxStaysInRange : Prop :=
  (∀ s t : State, IdxInRange s.engine → step s = .next t → IdxInRange t.engine) ∧ IdxInRange State.reset.engine

/-- 10_state.md R21, R25, 43_register_access.md R192: with `rst` low, a step that changes the engine is a SEED, a SEEDH or a NEXT
accepted in it or the FETCH of a DRAW; and no step clears SEEDED. -/
def Obligations.OnlyEngineCommandsChangeTheEngine : Prop :=
  ∀ s t : State, (hostMove s).host.pins.rst = false → step s = .next t →
    (t.engine ≠ s.engine →
      (s.draw.busy = true ∧ s.draw.micro = .fetch) ∨
      (∃ p i, (hostMove s).host.pins.cmd = some p ∧ cmdReady s = true ∧ decode p = .ok i ∧
        ((∃ x, i = .seed x) ∨ i = .seedh ∨ i = .next))) ∧
    (s.engine.seeded = true → t.engine.seeded = true)

/-! ## RangeSampler -/

/-- 42_range_sampler.md R160: CFGW with `bits` in 1..64 completes in every state, writes both fields, answers 0, and changes
nothing else; every `max` is legal. -/
def Obligations.CfgwWritesTheConfiguration : Prop :=
  ∀ (s : State) (bits : BitVec 7) (max : Word), 1 ≤ bits.toNat → bits.toNat ≤ 64 →
    exec (.cfgw bits max) s = .next (answered 0 { s with cfg := { bits := bits, max := max } })

/-- 42_range_sampler.md R173, R161: a seeded DRAW with `low` = `high` answers `low` and consumes no word; an unseeded one faults
NOT_SEEDED. -/
def Obligations.DegenerateDrawConsumesNoWord : Prop :=
  ∀ (s : State) (low : BitVec 32),
    (s.engine.seeded = true → exec (.draw low low) s = .next (answered (low.setWidth 64) s)) ∧
    (s.engine.seeded = false → exec (.draw low low) s = .next (faulted 2 s))

/-- 42_range_sampler.md R161, R163: a seeded DRAW with `low` < `high` completes its command-level part at START: BUSY 1, D_RANGE the
exact range, D_LOW, D_USED 0, ATTEMPT next; nothing else changes, and there is no response yet. That START runs whole in
the step that executes DRAW is the model's reading (log entry 6, DEDUCED). -/
def Obligations.DrawStartsWithTheExactRange : Prop :=
  ∀ (s : State) (low high : BitVec 32), s.engine.seeded = true → low.toNat < high.toNat →
    ∃ r : BitVec 33, r.toNat = high.toNat - low.toNat + 1 ∧
      exec (.draw low high) s = .next { s with draw := { s.draw with busy := true, range := some r, low := some low
                                                                     used := some 0, micro := .attempt } }

/-- 42_range_sampler.md R164, R165: ATTEMPT zeroes both accumulators and goes to TEST; TEST shifts both by CFG_BITS and goes to FETCH
while ACC_D < D_RANGE − 1, else goes to EVAL. -/
def Obligations.AttemptAndTestMicroSteps : Prop :=
  (∀ s h : State, BlockMovesIn s h → h.draw.busy = true → h.draw.micro = .attempt →
    step s = .next { h with draw := { h.draw with accV := some 0, accD := some 0, micro := .test } }) ∧
  (∀ (s h : State) (v d : Acc) (r : BitVec 33), BlockMovesIn s h → h.draw.busy = true → h.draw.micro = .test →
    h.draw.accV = some v → h.draw.accD = some d → h.draw.range = some r →
    (d.toNat < r.toNat - 1 →
      step s = .next { h with draw := { h.draw with accV := some (v <<< h.cfg.bits.toNat)
                                                    accD := some (d <<< h.cfg.bits.toNat), micro := .fetch } }) ∧
    (r.toNat - 1 ≤ d.toNat → step s = .next { h with draw := { h.draw with micro := .eval } }))

/-- 42_range_sampler.md R166: FETCH draws one word and counts it; a word above CFG_MAX is discarded and FETCH comes again; any other
is ORed whole into ACC_V, CFG_MAX into ACC_D, and TEST comes next. The engine advances by that one word. -/
def Obligations.FetchDrawsOneWord : Prop :=
  ∀ (s h : State) (v d : Acc) (used : Nat) (raw : Word) (e : Engine), BlockMovesIn s h → h.draw.busy = true →
    h.draw.micro = .fetch → h.draw.accV = some v → h.draw.accD = some d → h.draw.used = some used →
    nextWord h.engine = .ok (raw, e) →
    (h.cfg.max.toNat < raw.toNat →
      step s = .next { h with engine := e, draw := { h.draw with used := some (used + 1) } }) ∧
    (raw.toNat ≤ h.cfg.max.toNat →
      step s = .next { h with engine := e
                              draw := { h.draw with used := some (used + 1), accV := some (v ||| raw.setWidth 96)
                                                    accD := some (d ||| h.cfg.max.setWidth 96), micro := .test } })

/-- 42_range_sampler.md R167, R171: EVAL accepts on `qValue < qDomain` or on the edge test, and then FINISH clears BUSY and answers
`(ACC_V mod D_RANGE) + D_LOW` with the other registers keeping their values; else the attempt restarts. That FINISH runs in
EVAL's own step is the model's reading (log entry 6, DEDUCED). -/
def Obligations.EvalFinishesOrRestarts : Prop :=
  ∀ (s h : State) (v d : Acc) (r : BitVec 33) (low : BitVec 32), BlockMovesIn s h → h.draw.busy = true →
    h.draw.micro = .eval → h.draw.accV = some v → h.draw.accD = some d → h.draw.range = some r →
    h.draw.low = some low →
    (v.toNat / r.toNat < d.toNat / r.toNat ∨ (d.toNat % r.toNat = r.toNat - 1 ∧ d.toNat >>> 32 = 0) →
      step s = .next (answered ((BitVec.ofNat 32 (v.toNat % r.toNat + low.toNat)).setWidth 64)
        { h with draw := { h.draw with busy := false } })) ∧
    (d.toNat / r.toNat ≤ v.toNat / r.toNat → (d.toNat % r.toNat ≠ r.toNat - 1 ∨ d.toNat >>> 32 ≠ 0) →
      step s = .next { h with draw := { h.draw with micro := .attempt } })

/-- 42_range_sampler.md R170, 60_exceptions.md R205: under DRAW_WORD_CAP = some c, the FETCH that finds c words consumed faults
SAMPLING_EXHAUSTED and clears BUSY, and the words stay consumed; this hardware has no cap. That EXHAUST runs in the step of
the FETCH that goes to it is the model's reading (log entry 6, DEDUCED). -/
def Obligations.WordCapEndsTheDraw : Prop :=
  (∀ (p : Config.Params) (s : State) (c : Nat), p.drawWordCap = some c → s.draw.micro = .fetch →
    s.draw.used = some c →
      microStep p s = .next (faulted 5 { s with draw := { s.draw with busy := false } })) ∧
  thisHardware.drawWordCap = none

/-- 42_range_sampler.md R168: from a sound state no shift or OR of a DRAW loses a bit: TEST with ACC_D < D_RANGE − 1 leaves
the accumulators at ACC_V · 2^CFG_BITS and ACC_D · 2^CFG_BITS as numbers, and a FETCH that accepts `raw` leaves them at
ACC_V | raw and ACC_D | CFG_MAX as numbers. -/
def Obligations.AccumulatorsLoseNoBit : Prop :=
  (∀ (s h : State) (v d : Acc) (r : BitVec 33), Inv s → BlockMovesIn s h → h.draw.busy = true → h.draw.micro = .test →
    h.draw.accV = some v → h.draw.accD = some d → h.draw.range = some r → d.toNat < r.toNat - 1 →
      ∃ t v' d', step s = .next t ∧ t.draw.accV = some v' ∧ t.draw.accD = some d' ∧
        v'.toNat = v.toNat * 2 ^ h.cfg.bits.toNat ∧ d'.toNat = d.toNat * 2 ^ h.cfg.bits.toNat) ∧
  (∀ (s h : State) (v d : Acc) (raw : Word) (e : Engine), Inv s → BlockMovesIn s h → h.draw.busy = true →
    h.draw.micro = .fetch → h.draw.accV = some v → h.draw.accD = some d → nextWord h.engine = .ok (raw, e) →
    raw.toNat ≤ h.cfg.max.toNat →
      ∃ t v' d', step s = .next t ∧ t.draw.accV = some v' ∧ t.draw.accD = some d' ∧
        v'.toNat = v.toNat ||| raw.toNat ∧ d'.toNat = d.toNat ||| h.cfg.max.toNat)

/-- 42_range_sampler.md R169: the result of a DRAW lies in [D_LOW, D_LOW + D_RANGE − 1], which is [low, high], and fits 32 bits. -/
def Obligations.DrawResultLiesInItsBounds : Prop :=
  ∀ (s h t : State) (low : BitVec 32) (r : BitVec 33), Inv s → BlockMovesIn s h → h.draw.busy = true →
    h.draw.low = some low → h.draw.range = some r → step s = .next t → t.draw.busy = false →
      ∃ d : Word, t.rsp = { valid := true, status := some 0, data := some d } ∧
        low.toNat ≤ d.toNat ∧ d.toNat ≤ low.toNat + r.toNat - 1 ∧ d.toNat < 2 ^ 32

/-- 42_range_sampler.md R172. With CFG_MAX all ones, whatever CFG_BITS is, a FETCH discards no word; and an attempt of a DRAW
in progress reaches EVAL after exactly one word, with ACC_D = 2^64 − 1 and ACC_V that word `raw`, and then finishes with
(raw mod range) + low where raw < `qDomain * range`, and restarts otherwise (each micro-step is one step of the machine, and
FINISH runs in EVAL's: log entry 6, DEDUCED). For a range of 2..2^32 the acceptance test with ACC_D all ones accepts exactly
the raws below `qDomain * range`, so that r + 1 raw values restart the attempt, r = (2^64 − 1) mod range; the edge test never
accepts. -/
def Obligations.ReferenceConfigurationAcceptance : Prop :=
  (∀ (s h : State) (raw : Word) (e : Engine), BlockMovesIn s h → h.draw.busy = true → h.draw.micro = .fetch →
    h.cfg.max = 0xFFFFFFFFFFFFFFFF → nextWord h.engine = .ok (raw, e) →
      ∃ t, step s = .next t ∧ t.draw.micro = .test ∧ t.engine = e) ∧
  (∀ (s : State) (r : BitVec 33) (low : BitVec 32) (used : Nat) (raw : Word) (e : Engine),
    Inv s → NoReset s.host → s.draw.busy = true → s.draw.micro = .attempt → s.cfg.max = 0xFFFFFFFFFFFFFFFF →
    s.draw.range = some r → s.draw.low = some low → s.draw.used = some used → nextWord s.engine = .ok (raw, e) →
      ∃ t t', Host.Core.run core 4 s = .next t ∧ t.draw.busy = true ∧ t.draw.micro = .eval ∧
        t.draw.accV = some (raw.setWidth 96) ∧ t.draw.accD = some 0xFFFFFFFFFFFFFFFF ∧
        t.draw.used = some (used + 1) ∧ t.engine = e ∧
        step t = .next t' ∧ t'.engine = e ∧ t'.draw.used = some (used + 1) ∧
        (raw.toNat < (2 ^ 64 - 1) / r.toNat * r.toNat →
          t'.draw.busy = false ∧
          t'.rsp = { valid := true, status := some 0, data := some (BitVec.ofNat 64 (raw.toNat % r.toNat + low.toNat)) }) ∧
        ((2 ^ 64 - 1) / r.toNat * r.toNat ≤ raw.toNat →
          t'.draw.busy = true ∧ t'.draw.micro = .attempt ∧ t'.rsp.valid = false)) ∧
  (∀ range raw : Nat, 2 ≤ range → range ≤ 2 ^ 32 → raw < 2 ^ 64 →
    (drawAccepts raw (2 ^ 64 - 1) range = true ↔ raw < (2 ^ 64 - 1) / range * range) ∧
    2 ^ 64 - (2 ^ 64 - 1) / range * range = (2 ^ 64 - 1) % range + 1)

/-- 42_range_sampler.md R176: with CFG_MAX = 0 a DRAW in progress whose ACC_D is 0 never ends while `rst` stays low: after any number of
steps BUSY is still 1 and there is no response. -/
def Obligations.ZeroCeilingDrawNeverEnds : Prop :=
  ∀ s : State, Inv s → NoReset s.host → s.draw.busy = true → s.cfg.max = 0 → s.draw.micro ≠ .eval →
    (s.draw.micro ≠ .attempt → s.draw.accD = some 0) →
    ∀ n, ∃ t, Host.Core.run core n s = .next t ∧ t.draw.busy = true ∧ t.rsp.valid = false

/-- 42_range_sampler.md R162, R177: where the engine's next k words make the loop of R162, in unbounded natural numbers, end with a
result exactly at the k-th, the micro-steps of the DRAW reach FINISH with that result, with exactly those k words
consumed, so that the engine is the one k calls of NextWord leave. -/
def Obligations.MicroStepsComputeTheDrawLoop : Prop :=
  ∀ (s : State) (r : BitVec 33) (low : BitVec 32) (k : Nat) (ws : List Word) (e : Engine) (res : Nat),
    Inv s → NoReset s.host → s.draw.busy = true → s.draw.micro = .attempt → s.draw.used = some 0 →
    s.draw.range = some r → s.draw.low = some low →
    nextWords k s.engine = .ok (ws, e) →
    drawLoop s.cfg.bits.toNat s.cfg.max.toNat r.toNat low.toNat 0 0 (ws.map BitVec.toNat) = some (res, []) →
    ∃ n t, Host.Core.run core n s = .next t ∧ t.draw.busy = false ∧ t.draw.used = some k ∧ t.engine = e ∧
      t.rsp = { valid := true, status := some 0, data := some (BitVec.ofNat 64 res) } ∧
      t.hash = s.hash ∧ t.cfg = s.cfg ∧ t.err = s.err

/-! ## Register access -/

/-- 43_register_access.md R190, R191: RDREG of 0, 1, 3 and 4 completes in every state, and RDREG 2 on a seeded engine, with the register's
value before the response is written; nothing else changes. -/
def Obligations.RdregAnswersTheRegister : Prop :=
  ∀ s : State,
    exec (.rdreg 0) s = .next (answered (statusWord s) s) ∧
    exec (.rdreg 1) s = .next (answered s.hash.value s) ∧
    (∀ v, s.engine.seeded = true → s.engine.idx = some v → exec (.rdreg 2) s = .next (answered (v.setWidth 64) s)) ∧
    exec (.rdreg 3) s = .next (answered (s.cfg.bits.setWidth 64) s) ∧
    exec (.rdreg 4) s = .next (answered s.cfg.max s)

/-! ## Frames and invariants -/

/-- 10_state.md R20's "written by" column, R39: each command leaves every register but those it is named for. The response and the
error record are the end of every command (30_encoding.md R80). There is no memory. -/
def Obligations.CommandFrames : Prop :=
  ∀ (i : Instr) (s t : State), exec i s = .next t →
    t.host = s.host ∧ t.resets = s.resets ∧
    (t.rsp.status = some 0 → t.err = s.err) ∧
    match i with
    | .hclr => t.engine = s.engine ∧ t.cfg = s.cfg ∧ t.draw = s.draw
    | .hbyte _ => t.engine = s.engine ∧ t.cfg = s.cfg ∧ t.draw = s.draw
    | .seed _ => t.hash = s.hash ∧ t.cfg = s.cfg ∧ t.draw = s.draw
    | .seedh => t.hash = s.hash ∧ t.cfg = s.cfg ∧ t.draw = s.draw
    | .next => t.hash = s.hash ∧ t.cfg = s.cfg ∧ t.draw = s.draw ∧ t.engine.seeded = s.engine.seeded
    | .cfgw _ _ => t.engine = s.engine ∧ t.hash = s.hash ∧ t.draw = s.draw
    | .draw _ _ => t.engine = s.engine ∧ t.hash = s.hash ∧ t.cfg = s.cfg ∧ t.draw.accV = s.draw.accV ∧
        t.draw.accD = s.draw.accD
    | .rdreg _ => t.engine = s.engine ∧ t.hash = s.hash ∧ t.cfg = s.cfg ∧ t.draw = s.draw

/-- 42_range_sampler.md R163 to R171: a micro-step of a DRAW, under any DRAW_WORD_CAP, leaves HASH, HASH_TERM, the configuration,
SEEDED, D_RANGE, D_LOW and the host's pins; only FETCH touches the engine. -/
def Obligations.MicroStepFrame : Prop :=
  ∀ (p : Config.Params) (s t : State), microStep p s = .next t →
    t.hash = s.hash ∧ t.cfg = s.cfg ∧ t.host = s.host ∧ t.resets = s.resets ∧
    t.engine.seeded = s.engine.seeded ∧ t.draw.range = s.draw.range ∧ t.draw.low = s.draw.low ∧
    (s.draw.micro ≠ .fetch → t.engine = s.engine)

/-- 41_twister.md R140, 10_state.md R24, R28, R35, R36: the invariant of a sound state holds after every step from one. -/
def Obligations.StepKeepsTheInvariant : Prop :=
  ∀ s t : State, Inv s → step s = .next t → Inv t

/-- 70_reset_and_hazards.md R240: the state after reset is sound. -/
def Obligations.ResetIsSound : Prop := Inv State.reset

/-- 41_twister.md R140, 60_exceptions.md R209: from a sound state no step stops: no command sequence reads an unwritten element, and no
command is refused. -/
def Obligations.SoundStateAlwaysSteps : Prop :=
  ∀ s : State, Inv s → ∃ t, step s = .next t

/-! ## The assembler -/

/-- 30_encoding.md R83, R84: an operand outside its field's range is an assembly error, never a truncation; and a line whose
operands are all in range assembles to its command, with every operand exactly the number written, and a pseudo-instruction to
its expansion. -/
def Obligations.AssemblerNeverTruncates : Prop :=
  (∀ (l : AsmLine) (cmds : List Instr), assembleLine l = some cmds →
    match l with
    | .hbyte n => ∃ b, cmds = [.hbyte b] ∧ b.toNat = n
    | .seed n => ∃ x, cmds = [.seed x] ∧ x.toNat = n
    | .cfgw m n => ∃ bits max, cmds = [.cfgw bits max] ∧ bits.toNat = m ∧ max.toNat = n
    | .draw m n => ∃ low high, cmds = [.draw low high] ∧ low.toNat = m ∧ high.toNat = n
    | .rdreg n => ∃ reg, cmds = [.rdreg reg] ∧ reg.toNat = n
    | _ => True) ∧
  (∀ b : BitVec 8, assembleLine (.hbyte b.toNat) = some [.hbyte b]) ∧
  (∀ x : BitVec 64, assembleLine (.seed x.toNat) = some [.seed x]) ∧
  (∀ (bits : BitVec 7) (max : BitVec 64), assembleLine (.cfgw bits.toNat max.toNat) = some [.cfgw bits max]) ∧
  (∀ low high : BitVec 32, assembleLine (.draw low.toNat high.toNat) = some [.draw low high]) ∧
  (∀ reg : BitVec 8, assembleLine (.rdreg reg.toNat) = some [.rdreg reg]) ∧
  assembleLine .hclr = some [.hclr] ∧ assembleLine .seedh = some [.seedh] ∧ assembleLine .next = some [.next] ∧
  (∀ bytes, assembleLine (.hstr bytes) = some (.hclr :: bytes.map .hbyte)) ∧
  (∀ bytes, assembleLine (.seedstr bytes) = some (.hclr :: bytes.map .hbyte ++ [.seedh])) ∧
  assembleLine .cfgref = some [.cfgw 64 0xFFFFFFFFFFFFFFFF] ∧
  assembleLine .rdstatus = some [.rdreg 0] ∧ assembleLine .rdhash = some [.rdreg 1] ∧
  assembleLine .rdidx = some [.rdreg 2] ∧ assembleLine .rdbits = some [.rdreg 3] ∧ assembleLine .rdmax = some [.rdreg 4]

/-- 30_encoding.md R84, 40_seed_hash.md R103: `SEEDSTR` of a byte string seeds the engine with `Hash` of the bytes before its first NUL. -/
def Obligations.SeedstrSeedsWithTheHash : Prop :=
  ∀ (bytes : List (BitVec 8)) (s : State),
    ∃ cmds t, assembleLine (.seedstr bytes) = some cmds ∧ execSeq cmds s = .next t ∧
      t.engine = initEngine (hashOf thisHardware (bytes.takeWhile (fun b => b != 0)))

/-- 30_encoding.md R83: the packet's two numeric spellings are read back as the packet they spell. -/
def Obligations.PacketSpellingsReadBack : Prop :=
  ∀ p : Packet, readPacketHex (packetHex p) = some p ∧ readPacketFields (packetFields p) = some p

/-! ## NextWord's calls, numbered from a seeding -/

/-- 41_twister.md R133: the n-th call of NextWord on the engine that `Initialize` leaves completes, for every n, whichever
command makes it (NEXT, or a DRAW's FETCH) and whichever seeded (SEED or SEEDH). IDX after call n is (n + 312) mod 624, or
624 where that is 0; call n answers the tempered WORDS[(n + 311) mod 624]; the half refill runs exactly when n ≡ 1 and the
full refill exactly when n ≡ 313 (mod 624), and every other call leaves WORDS. -/
def Obligations.NextWordPeriodicity : Prop :=
  ∀ (x : Word) (n : Nat),
    ∃ (ws : List Word) (u e : Engine) (w : Word),
      nextWords n (initEngine x) = .ok (ws, u) ∧ nextWord u = .ok (w, e) ∧ e.seeded = true ∧
      e.idx = some (BitVec.ofNat 10 (if (n + 1 + 312) % 624 = 0 then 624 else (n + 1 + 312) % 624)) ∧
      (∃ y, e.words[(n + 1 + 311) % 624]? = some (some y) ∧ w = temper y) ∧
      ((n + 1) % 624 = 1 → halfRefill u.words = .ok e.words) ∧
      ((n + 1) % 624 = 313 → fullRefill u.words = .ok e.words) ∧
      ((n + 1) % 624 ≠ 1 → (n + 1) % 624 ≠ 313 → e.words = u.words)
end

