-- ==== Sys2Proof/Laws/State.lean ====
section
/-! SUPPORT. What every named update of the state leaves in every part of it: one lemma per update and part, true by rfl, so that no
proof unfolds a record update. -/

namespace Sys2Proof.Machine

@[simp] theorem respond_engine (st : Status) (d : Word) (s : State) : (respond st d s).engine = s.engine := rfl
@[simp] theorem respond_hash (st : Status) (d : Word) (s : State) : (respond st d s).hash = s.hash := rfl
@[simp] theorem respond_cfg (st : Status) (d : Word) (s : State) : (respond st d s).cfg = s.cfg := rfl
@[simp] theorem respond_err (st : Status) (d : Word) (s : State) : (respond st d s).err = recordError (statusCode st) s.err := rfl
@[simp] theorem respond_draw (st : Status) (d : Word) (s : State) : (respond st d s).draw = s.draw := rfl
@[simp] theorem respond_rsp (st : Status) (d : Word) (s : State) : (respond st d s).rsp = { valid := true, status := some (statusCode st), data := some d } := rfl
@[simp] theorem respond_host (st : Status) (d : Word) (s : State) : (respond st d s).host = s.host := rfl
@[simp] theorem respond_resets (st : Status) (d : Word) (s : State) : (respond st d s).resets = s.resets := rfl

@[simp] theorem raise_engine (st : Status) (s : State) : (raise st s).engine = s.engine := rfl
@[simp] theorem raise_hash (st : Status) (s : State) : (raise st s).hash = s.hash := rfl
@[simp] theorem raise_cfg (st : Status) (s : State) : (raise st s).cfg = s.cfg := rfl
@[simp] theorem raise_err (st : Status) (s : State) : (raise st s).err = recordError (statusCode st) s.err := rfl
@[simp] theorem raise_draw (st : Status) (s : State) : (raise st s).draw = s.draw := rfl
@[simp] theorem raise_rsp (st : Status) (s : State) : (raise st s).rsp = { valid := true, status := some (statusCode st), data := some 0 } := rfl
@[simp] theorem raise_host (st : Status) (s : State) : (raise st s).host = s.host := rfl
@[simp] theorem raise_resets (st : Status) (s : State) : (raise st s).resets = s.resets := rfl

@[simp] theorem setHash_engine (v : Word) (t : Bool) (s : State) : (setHash v t s).engine = s.engine := rfl
@[simp] theorem setHash_hash (v : Word) (t : Bool) (s : State) : (setHash v t s).hash = { value := v, term := t } := rfl
@[simp] theorem setHash_cfg (v : Word) (t : Bool) (s : State) : (setHash v t s).cfg = s.cfg := rfl
@[simp] theorem setHash_err (v : Word) (t : Bool) (s : State) : (setHash v t s).err = s.err := rfl
@[simp] theorem setHash_draw (v : Word) (t : Bool) (s : State) : (setHash v t s).draw = s.draw := rfl
@[simp] theorem setHash_rsp (v : Word) (t : Bool) (s : State) : (setHash v t s).rsp = s.rsp := rfl
@[simp] theorem setHash_host (v : Word) (t : Bool) (s : State) : (setHash v t s).host = s.host := rfl
@[simp] theorem setHash_resets (v : Word) (t : Bool) (s : State) : (setHash v t s).resets = s.resets := rfl

@[simp] theorem setCfg_engine (b : BitVec 7) (m : Word) (s : State) : (setCfg b m s).engine = s.engine := rfl
@[simp] theorem setCfg_hash (b : BitVec 7) (m : Word) (s : State) : (setCfg b m s).hash = s.hash := rfl
@[simp] theorem setCfg_cfg (b : BitVec 7) (m : Word) (s : State) : (setCfg b m s).cfg = { bits := b, max := m } := rfl
@[simp] theorem setCfg_err (b : BitVec 7) (m : Word) (s : State) : (setCfg b m s).err = s.err := rfl
@[simp] theorem setCfg_draw (b : BitVec 7) (m : Word) (s : State) : (setCfg b m s).draw = s.draw := rfl
@[simp] theorem setCfg_rsp (b : BitVec 7) (m : Word) (s : State) : (setCfg b m s).rsp = s.rsp := rfl
@[simp] theorem setCfg_host (b : BitVec 7) (m : Word) (s : State) : (setCfg b m s).host = s.host := rfl
@[simp] theorem setCfg_resets (b : BitVec 7) (m : Word) (s : State) : (setCfg b m s).resets = s.resets := rfl

@[simp] theorem setEngine_engine (e : Engine) (s : State) : (setEngine e s).engine = e := rfl
@[simp] theorem setEngine_hash (e : Engine) (s : State) : (setEngine e s).hash = s.hash := rfl
@[simp] theorem setEngine_cfg (e : Engine) (s : State) : (setEngine e s).cfg = s.cfg := rfl
@[simp] theorem setEngine_err (e : Engine) (s : State) : (setEngine e s).err = s.err := rfl
@[simp] theorem setEngine_draw (e : Engine) (s : State) : (setEngine e s).draw = s.draw := rfl
@[simp] theorem setEngine_rsp (e : Engine) (s : State) : (setEngine e s).rsp = s.rsp := rfl
@[simp] theorem setEngine_host (e : Engine) (s : State) : (setEngine e s).host = s.host := rfl
@[simp] theorem setEngine_resets (e : Engine) (s : State) : (setEngine e s).resets = s.resets := rfl

@[simp] theorem setDraw_engine (d : DrawRegs) (s : State) : (setDraw d s).engine = s.engine := rfl
@[simp] theorem setDraw_hash (d : DrawRegs) (s : State) : (setDraw d s).hash = s.hash := rfl
@[simp] theorem setDraw_cfg (d : DrawRegs) (s : State) : (setDraw d s).cfg = s.cfg := rfl
@[simp] theorem setDraw_err (d : DrawRegs) (s : State) : (setDraw d s).err = s.err := rfl
@[simp] theorem setDraw_draw (d : DrawRegs) (s : State) : (setDraw d s).draw = d := rfl
@[simp] theorem setDraw_rsp (d : DrawRegs) (s : State) : (setDraw d s).rsp = s.rsp := rfl
@[simp] theorem setDraw_host (d : DrawRegs) (s : State) : (setDraw d s).host = s.host := rfl
@[simp] theorem setDraw_resets (d : DrawRegs) (s : State) : (setDraw d s).resets = s.resets := rfl

@[simp] theorem setHost_engine (h : HostPort) (s : State) : (setHost h s).engine = s.engine := rfl
@[simp] theorem setHost_hash (h : HostPort) (s : State) : (setHost h s).hash = s.hash := rfl
@[simp] theorem setHost_cfg (h : HostPort) (s : State) : (setHost h s).cfg = s.cfg := rfl
@[simp] theorem setHost_err (h : HostPort) (s : State) : (setHost h s).err = s.err := rfl
@[simp] theorem setHost_draw (h : HostPort) (s : State) : (setHost h s).draw = s.draw := rfl
@[simp] theorem setHost_rsp (h : HostPort) (s : State) : (setHost h s).rsp = s.rsp := rfl
@[simp] theorem setHost_host (h : HostPort) (s : State) : (setHost h s).host = h := rfl
@[simp] theorem setHost_resets (h : HostPort) (s : State) : (setHost h s).resets = s.resets := rfl

@[simp] theorem setRspValid_engine (v : Bool) (s : State) : (setRspValid v s).engine = s.engine := rfl
@[simp] theorem setRspValid_hash (v : Bool) (s : State) : (setRspValid v s).hash = s.hash := rfl
@[simp] theorem setRspValid_cfg (v : Bool) (s : State) : (setRspValid v s).cfg = s.cfg := rfl
@[simp] theorem setRspValid_err (v : Bool) (s : State) : (setRspValid v s).err = s.err := rfl
@[simp] theorem setRspValid_draw (v : Bool) (s : State) : (setRspValid v s).draw = s.draw := rfl
@[simp] theorem setRspValid_rsp (v : Bool) (s : State) : (setRspValid v s).rsp = { s.rsp with valid := v } := rfl
@[simp] theorem setRspValid_host (v : Bool) (s : State) : (setRspValid v s).host = s.host := rfl
@[simp] theorem setRspValid_resets (v : Bool) (s : State) : (setRspValid v s).resets = s.resets := rfl

@[simp] theorem resetBlock_engine (s : State) : (resetBlock s).engine = State.reset.engine := rfl
@[simp] theorem resetBlock_hash (s : State) : (resetBlock s).hash = State.reset.hash := rfl
@[simp] theorem resetBlock_cfg (s : State) : (resetBlock s).cfg = State.reset.cfg := rfl
@[simp] theorem resetBlock_err (s : State) : (resetBlock s).err = State.reset.err := rfl
@[simp] theorem resetBlock_draw (s : State) : (resetBlock s).draw = State.reset.draw := rfl
@[simp] theorem resetBlock_rsp (s : State) : (resetBlock s).rsp = State.reset.rsp := rfl
@[simp] theorem resetBlock_host (s : State) : (resetBlock s).host = s.host := rfl
@[simp] theorem resetBlock_resets (s : State) : (resetBlock s).resets = s.resets + 1 := rfl

end Sys2Proof.Machine
end

