-- ==== Sys2Proof/Laws/Ops.lean ====
section
/-! SUPPORT. What the shared operations can do, once each: the error record, reading and writing WORDS, and the in-place
loop. -/

namespace Sys2Proof.Machine

/-- A status is OK exactly when its code is 0. -/
theorem statusCode_eq_zero_iff (st : Status) : statusCode st = 0 ↔ st = .ok := by
  cases st <;> decide

@[simp] theorem recordError_zero (e : ErrorRecord) : recordError 0#4 e = e := rfl

theorem recordError_of_ne_zero {c : BitVec 4} (h : c ≠ 0) (e : ErrorRecord) :
    recordError c e = { sticky := true, last := c } := if_neg h

/-- A command that ends with OK leaves the error record. -/
@[simp] theorem recordError_ok (e : ErrorRecord) : recordError (statusCode .ok) e = e := rfl

/-- A status other than OK records its code. -/
theorem recordError_of_ne_ok {st : Status} (h : st ≠ .ok) (e : ErrorRecord) :
    recordError (statusCode st) e = { sticky := true, last := statusCode st } :=
  recordError_of_ne_zero (fun h0 => h ((statusCode_eq_zero_iff st).1 h0)) e

/-! ### WORDS -/

theorem readWord_ok_iff {ws : Words} {i : Nat} {w : Word} : readWord ws i = .ok w ↔ ws[i]? = some (some w) := by
  unfold readWord
  rcases ws[i]? with _ | _ | v <;> simp

theorem readWord_error_eq {ws : Words} {i : Nat} {f : Fault} (h : readWord ws i = .error f) :
    f = .unwrittenRead i := by
  unfold readWord at h
  split at h <;> cases h
  rfl

@[simp] theorem length_writeWord (ws : Words) (i : Nat) (w : Word) : (writeWord ws i w).length = ws.length := by
  simp [writeWord]

theorem getElem?_writeWord_same {ws : Words} {i : Nat} (h : i < ws.length) (w : Word) :
    (writeWord ws i w)[i]? = some (some w) := by
  simp [writeWord, h]

theorem getElem?_writeWord_other {ws : Words} {i j : Nat} (h : i ≠ j) (w : Word) :
    (writeWord ws i w)[j]? = ws[j]? := by
  simp [writeWord, List.getElem?_set_ne h]

/-- A read after a write to the same element gives the value written. -/
theorem readWord_writeWord_same {ws : Words} {i : Nat} (h : i < ws.length) (w : Word) :
    readWord (writeWord ws i w) i = .ok w :=
  readWord_ok_iff.2 (getElem?_writeWord_same h w)

/-- A write leaves every other element alone. -/
theorem readWord_writeWord_other {ws : Words} {i j : Nat} (h : i ≠ j) (w : Word) :
    readWord (writeWord ws i w) j = readWord ws j := by
  unfold readWord
  rw [getElem?_writeWord_other h]

/-! ### The in-place loop -/

/-- A loop whose every iteration completes and takes `P i` to `P (i + 1)` completes and takes `P` from its first index to
the one past its last. -/
theorem forWords_completes {body : Nat → Words → Except Fault Words} (P : Nat → Words → Prop) :
    ∀ (count first : Nat) (ws : Words), P first ws →
      (∀ i ws, first ≤ i → i < first + count → P i ws → ∃ ws', body i ws = .ok ws' ∧ P (i + 1) ws') →
      ∃ ws', forWords body count first ws = .ok ws' ∧ P (first + count) ws'
  | 0, first, ws, h0, _ => ⟨ws, rfl, h0⟩
  | count + 1, first, ws, h0, hstep => by
    obtain ⟨ws1, hb, h1⟩ := hstep first ws le_rfl (by omega) h0
    obtain ⟨ws2, hf, h2⟩ := forWords_completes P count (first + 1) ws1 h1
      (fun i ws hi hlt => hstep i ws (by omega) (by omega))
    refine ⟨ws2, ?_, ?_⟩
    · simp only [forWords, hb, hf]
    · rwa [show first + (count + 1) = first + 1 + count from by omega]

/-- What every completed iteration keeps, a completed loop keeps. -/
theorem forWords_keeps {body : Nat → Words → Except Fault Words} (P : Words → Prop) :
    ∀ (count first : Nat) (ws ws' : Words),
      (∀ i ws ws', first ≤ i → i < first + count → body i ws = .ok ws' → P ws → P ws') →
      forWords body count first ws = .ok ws' → P ws → P ws'
  | 0, _, ws, ws', _, h, h0 => by
    simp only [forWords, Except.ok.injEq] at h
    exact h ▸ h0
  | count + 1, first, ws, ws', hstep, h, h0 => by
    simp only [forWords] at h
    split at h
    · next ws1 hb =>
      exact forWords_keeps P count (first + 1) ws1 ws'
        (fun i ws ws' hi hlt => hstep i ws ws' (by omega) (by omega)) h
        (hstep first ws ws1 le_rfl (by omega) hb h0)
    · cases h

end Sys2Proof.Machine
end

