-- ==== Sys2Proof/Laws/Engine.lean ====
section
/-! SUPPORT. What the engine's functions can do, once each. -/

namespace Sys2Proof.Machine

/-- A refill's statement completes exactly when its three reads do, and then writes one element. -/
theorem storeMix_ok_iff {ws ws' : Words} {k : Nat} {m u v : Except Fault Word} :
    storeMix ws k m u v = .ok ws' ↔
      ∃ a b c, m = .ok a ∧ u = .ok b ∧ v = .ok c ∧ ws' = writeWord ws k (a ^^^ twist b c) := by
  rcases m with f | a <;> rcases u with g | b <;> rcases v with h | c <;> simp [storeMix, mixReads, eq_comm]

theorem storeMix_length {ws ws' : Words} {k : Nat} {m u v : Except Fault Word} (h : storeMix ws k m u v = .ok ws') :
    ws'.length = ws.length := by
  obtain ⟨a, b, c, -, -, -, rfl⟩ := storeMix_ok_iff.1 h
  simp

/-- A refill's statement leaves every element but its own. -/
theorem storeMix_other {ws ws' : Words} {k j : Nat} {m u v : Except Fault Word} (h : storeMix ws k m u v = .ok ws')
    (hj : k ≠ j) : ws'[j]? = ws[j]? := by
  obtain ⟨a, b, c, -, -, -, rfl⟩ := storeMix_ok_iff.1 h
  exact getElem?_writeWord_other hj _

/-- Below 624 SafeRead reads the element; from 624 up it reads nothing and answers the sentinel. -/
theorem safeRead_of_lt {ws : Words} {i : Nat} (h : i < 624) : safeRead ws i = readWord ws i := by
  simp [safeRead, nWords, h]

theorem safeRead_of_ge {ws : Words} {i : Nat} (h : 624 ≤ i) : safeRead ws i = .ok 0x5555555555555555 := by
  simp [safeRead, nWords, sentinel, Nat.not_lt.2 h]

/-- NextWord completes exactly when IDX holds a value and the refill and the read do; then it advances IDX past the element
it read. -/
theorem nextWord_ok_iff {e e' : Engine} {w : Word} :
    nextWord e = .ok (w, e') ↔
      ∃ idx idx' ws x, e.idx = some idx ∧ refill idx e.words = .ok (idx', ws) ∧ readWord ws idx'.toNat = .ok x ∧
        w = temper x ∧ e' = { words := ws, idx := some (idx' + 1), seeded := e.seeded } := by
  unfold nextWord
  rcases e.idx with _ | idx
  · simp
  · rcases hr : refill idx e.words with f | ⟨idx', ws⟩
    · simp [hr]
    · rcases hx : readWord ws idx'.toNat with f | x
      · simp only [hr, hx, reduceCtorEq, false_iff]
        rintro ⟨i, j, ws', x, hi, hr', hx', -⟩
        cases hi
        rw [hr] at hr'
        cases hr'
        rw [hx] at hx'
        cases hx'
      · simp only [hr, hx, Except.ok.injEq, Prod.mk.injEq]
        constructor
        · rintro ⟨rfl, rfl⟩
          exact ⟨idx, idx', ws, x, rfl, hr, hx, rfl, rfl⟩
        · rintro ⟨i, j, ws', x', hi, hr', hx', rfl, rfl⟩
          cases hi
          rw [hr] at hr'
          cases hr'
          rw [hx] at hx'
          cases hx'
          exact ⟨rfl, rfl⟩

/-- NextWord leaves SEEDED. -/
theorem nextWord_seeded {e e' : Engine} {w : Word} (h : nextWord e = .ok (w, e')) : e'.seeded = e.seeded := by
  obtain ⟨_, _, _, _, -, -, -, -, rfl⟩ := nextWord_ok_iff.1 h
  rfl

/-- HalfRefill leaves every element below 312. -/
theorem halfRefill_below {ws ws' : Words} {j : Nat} (h : halfRefill ws = .ok ws') (hj : j < 312) : ws'[j]? = ws[j]? :=
  forWords_keeps (fun us => us[j]? = ws[j]?) 312 1 ws ws'
    (fun i _ _ hi _ hb hk => (storeMix_other hb (show i + 311 ≠ j by omega)).trans hk) h rfl

/-- FullRefillAndReset leaves WORDS[0] and every element from 312 up (41_twister.md R130). -/
theorem fullRefill_other {ws ws' : Words} {j : Nat} (h : fullRefill ws = .ok ws') (hj : j = 0 ∨ 312 ≤ j) :
    ws'[j]? = ws[j]? := by
  unfold fullRefill at h
  split at h
  · cases h
  · next ws1 h1 =>
    split at h
    · cases h
    · next ws2 h2 =>
      have keep1 : ws1[j]? = ws[j]? :=
        forWords_keeps (fun us => us[j]? = ws[j]?) 156 1 ws ws1
          (fun i _ _ hi hlt hb hk => (storeMix_other hb (show i ≠ j by omega)).trans hk) h1 rfl
      have keep2 : ws2[j]? = ws[j]? :=
        forWords_keeps (fun us => us[j]? = ws[j]?) 155 157 ws1 ws2
          (fun i _ _ hi hlt hb hk => (storeMix_other hb (show i ≠ j by omega)).trans hk) h2 keep1
      exact (storeMix_other h (show 311 ≠ j by omega)).trans keep2

/-- The three cases of the refill: PRIMED, EXHAUSTED, NORMAL. -/
theorem refill_ok_cases {idx idx' : BitVec 10} {ws ws' : Words} (h : refill idx ws = .ok (idx', ws')) :
    (idx.toNat = 312 ∧ idx' = idx ∧ halfRefill ws = .ok ws') ∨
    (624 ≤ idx.toNat ∧ idx' = 0 ∧ fullRefill ws = .ok ws') ∨
    (idx.toNat ≠ 312 ∧ idx.toNat < 624 ∧ idx' = idx ∧ ws' = ws) := by
  unfold refill at h
  split at h
  · next h312 =>
    split at h
    · next hh =>
      cases h
      exact .inl ⟨h312, rfl, hh⟩
    · cases h
  · next h312 =>
    split at h
    · next h624 =>
      split at h
      · next hh =>
        cases h
        exact .inr (.inl ⟨h624, rfl, hh⟩)
      · cases h
    · next h624 =>
      cases h
      exact .inr (.inr ⟨h312, Nat.lt_of_not_le h624, rfl, rfl⟩)

/-- NextWord leaves WORDS[0], whatever it refills (41_twister.md R134). -/
theorem nextWord_word_zero {e e' : Engine} {w : Word} (h : nextWord e = .ok (w, e')) : e'.words[0]? = e.words[0]? := by
  obtain ⟨idx, idx', ws, x, -, hr, -, -, rfl⟩ := nextWord_ok_iff.1 h
  rcases refill_ok_cases hr with ⟨-, -, hh⟩ | ⟨-, -, hf⟩ | ⟨-, -, -, rfl⟩
  · exact halfRefill_below hh (by omega)
  · exact fullRefill_other hf (.inl rfl)
  · rfl

theorem length_initWordsFrom : ∀ (count i : Nat) (curr : Word), (initWordsFrom count i curr).length = count
  | 0, _, _ => rfl
  | count + 1, i, curr => by simp [initWordsFrom, length_initWordsFrom count]

@[simp] theorem length_initWords (seed : Word) : (initWords seed).length = 624 := by
  simp only [initWords, List.length_cons, List.length_append, length_initWordsFrom, List.length_replicate]

/-- Every element the initialisation loop writes holds a value. -/
theorem initWordsFrom_isSome : ∀ (count i : Nat) (curr : Word), ∀ w ∈ initWordsFrom count i curr, w.isSome = true
  | 0, _, _, w, h => by simp [initWordsFrom] at h
  | count + 1, i, curr, w, h => by
    rcases List.mem_cons.1 h with rfl | h
    · rfl
    · exact initWordsFrom_isSome count (i + 1) (initStep curr i) w h

end Sys2Proof.Machine
end

