-- ==== Sys2Proof/Laws/PerInstr.lean ====
section
/-! SUPPORT. Statements for all commands, one lemma per constructor. -/

namespace Sys2Proof

/-- A packet's bits under a mask, operand by operand. -/
theorem covers_packet {r : OpcodeRow} {op : BitVec 8} {a b ma mb : Word} (hm : r.mask = mb ++ ma ++ (0xFF : BitVec 8))
    (hb : r.bits = (0 : Word) ++ (0 : Word) ++ op) (ha : a &&& ma = 0) (hb' : b &&& mb = 0) :
    r.covers (packet op a b) = true := by
  have hop : op &&& 0xFF = op := BitVec.and_allOnes
  simp only [OpcodeRow.covers, packet, hm, hb, beq_iff_eq]
  have h : (b ++ a ++ op) &&& (mb ++ ma ++ (0xFF : BitVec 8)) = (b &&& mb) ++ (a &&& ma) ++ (op &&& 0xFF) := by
    rw [BitVec.and_append, BitVec.and_append]
  rw [ha, hb', hop] at h
  exact h

/-- A field at bit 0 leaves the operand's other bits 0. -/
theorem operand_and_high {n : Nat} (x : BitVec n) : operand x &&& (BitVec.allOnes 64 <<< n) = 0 := by
  ext i hi
  by_cases h : i < n
  · simp [operand, h]
  · simp [operand, BitVec.getLsbD_of_ge x i (Nat.le_of_not_lt h)]

/-- The family: the command's packet is one of the row of spec/opcode_table.json that bears its mnemonic. -/
def Laws.TableRow.Statement (i : Instr) : Prop :=
  ∃ r ∈ opcodeTable, r.mnemonic = i.mnemonic ∧ r.covers (encode i) = true

theorem Laws.TableRow.hclr : Laws.TableRow.Statement .hclr := by
  refine ⟨opcodeTable[0], by simp, rfl, by decide⟩

theorem Laws.TableRow.hbyte (imm8 : BitVec 8) : Laws.TableRow.Statement (.hbyte imm8) :=
  ⟨opcodeTable[1], by simp, rfl, covers_packet (ma := BitVec.allOnes 64 <<< 8) (mb := BitVec.allOnes 64) (by decide)
    (by decide) (operand_and_high imm8) (by decide)⟩

theorem Laws.TableRow.seed (seed : Word) : Laws.TableRow.Statement (.seed seed) :=
  ⟨opcodeTable[2], by simp, rfl, covers_packet (ma := 0) (mb := BitVec.allOnes 64) (by decide) (by decide)
    BitVec.and_zero (by decide)⟩

theorem Laws.TableRow.seedh : Laws.TableRow.Statement .seedh := by
  refine ⟨opcodeTable[3], by simp, rfl, by decide⟩

theorem Laws.TableRow.next : Laws.TableRow.Statement .next := by
  refine ⟨opcodeTable[4], by simp, rfl, by decide⟩

theorem Laws.TableRow.cfgw (bits : BitVec 7) (max : Word) : Laws.TableRow.Statement (.cfgw bits max) :=
  ⟨opcodeTable[5], by simp, rfl, covers_packet (ma := BitVec.allOnes 64 <<< 7) (mb := 0) (by decide) (by decide)
    (operand_and_high bits) BitVec.and_zero⟩

theorem Laws.TableRow.draw (low high : BitVec 32) : Laws.TableRow.Statement (.draw low high) :=
  ⟨opcodeTable[6], by simp, rfl, covers_packet (ma := BitVec.allOnes 64 <<< 32) (mb := BitVec.allOnes 64 <<< 32)
    (by decide) (by decide) (operand_and_high low) (operand_and_high high)⟩

theorem Laws.TableRow.rdreg (reg : BitVec 8) : Laws.TableRow.Statement (.rdreg reg) :=
  ⟨opcodeTable[7], by simp, rfl, covers_packet (ma := BitVec.allOnes 64 <<< 8) (mb := BitVec.allOnes 64) (by decide)
    (by decide) (operand_and_high reg) (by decide)⟩

end Sys2Proof
end

