-- ==== Sys2Proof/Laws/Sequencer.lean ====
section
/-! SUPPORT. What a step can do, once: the host's move, the packet's run, the block's move, and the micro-steps. -/

namespace Sys2Proof.Machine

/-- The host's move changes the pins and the moves to come, nothing else. -/
theorem hostMove_eq (s : State) : hostMove s = { s with host := (hostMove s).host } := by
  unfold hostMove
  split <;> rfl

@[simp] theorem hostMove_engine (s : State) : (hostMove s).engine = s.engine := by rw [hostMove_eq]
@[simp] theorem hostMove_hash (s : State) : (hostMove s).hash = s.hash := by rw [hostMove_eq]
@[simp] theorem hostMove_cfg (s : State) : (hostMove s).cfg = s.cfg := by rw [hostMove_eq]
@[simp] theorem hostMove_err (s : State) : (hostMove s).err = s.err := by rw [hostMove_eq]
@[simp] theorem hostMove_draw (s : State) : (hostMove s).draw = s.draw := by rw [hostMove_eq]
@[simp] theorem hostMove_rsp (s : State) : (hostMove s).rsp = s.rsp := by rw [hostMove_eq]
@[simp] theorem hostMove_resets (s : State) : (hostMove s).resets = s.resets := by rw [hostMove_eq]

@[simp] theorem accept_engine (s : State) : (accept s).engine = s.engine := rfl
@[simp] theorem accept_hash (s : State) : (accept s).hash = s.hash := rfl
@[simp] theorem accept_cfg (s : State) : (accept s).cfg = s.cfg := rfl
@[simp] theorem accept_err (s : State) : (accept s).err = s.err := rfl
@[simp] theorem accept_draw (s : State) : (accept s).draw = s.draw := rfl
@[simp] theorem accept_rsp (s : State) : (accept s).rsp = s.rsp := rfl
@[simp] theorem accept_resets (s : State) : (accept s).resets = s.resets := rfl

theorem cmdReady_iff (s : State) : cmdReady s = true ↔ s.draw.busy = false ∧ s.rsp.valid = false := by
  simp [cmdReady]

/-- Everything a block's move that answers a next state can be: reset, a response taken, a micro-step, a response that
waits, an accepted packet, or nothing. -/
theorem blockMove_next_cases {s t : State} (h : blockMove s = .next t) :
    (s.host.pins.rst = true ∧ t = resetBlock s) ∨
    (s.host.pins.rst = false ∧ s.rsp.valid = true ∧ s.host.pins.rspReady = true ∧ t = setRspValid false s) ∨
    (s.host.pins.rst = false ∧ s.draw.busy = true ∧ microStep thisHardware s = .next t) ∨
    (s.host.pins.rst = false ∧ s.draw.busy = false ∧ s.rsp.valid = true ∧ t = s) ∨
    (s.host.pins.rst = false ∧ cmdReady s = true ∧ ∃ p, s.host.pins.cmd = some p ∧ runPacket p (accept s) = .next t) ∨
    (s.host.pins.rst = false ∧ cmdReady s = true ∧ s.host.pins.cmd = none ∧ t = s) := by
  unfold blockMove at h
  split at h
  · next hr =>
    cases h
    exact .inl ⟨hr, rfl⟩
  · next hr =>
    have hr : s.host.pins.rst = false := by simpa using hr
    split at h
    · next hv =>
      cases h
      simp only [Bool.and_eq_true] at hv
      exact .inr (.inl ⟨hr, hv.1, hv.2, rfl⟩)
    · split at h
      · next hb => exact .inr (.inr (.inl ⟨hr, hb, h⟩))
      · next hb =>
        have hb : s.draw.busy = false := by simpa using hb
        split at h
        · next hv =>
          cases h
          exact .inr (.inr (.inr (.inl ⟨hr, hb, hv, rfl⟩)))
        · next hv =>
          have hready : cmdReady s = true := (cmdReady_iff s).2 ⟨hb, by simpa using hv⟩
          split at h
          · next p hp => exact .inr (.inr (.inr (.inr (.inl ⟨hr, hready, p, hp, h⟩))))
          · next hp =>
            cases h
            exact .inr (.inr (.inr (.inr (.inr ⟨hr, hready, hp, rfl⟩))))

/-- With `rst` low and no response being taken, a busy block's move is the next micro-step of its DRAW. -/
theorem blockMove_of_busy {s : State} (hr : s.host.pins.rst = false) (hv : (s.rsp.valid && s.host.pins.rspReady) = false)
    (hb : s.draw.busy = true) : blockMove s = microStep thisHardware s := by
  simp [blockMove, hr, hv, hb]

/-- A packet runs its command, or raises ILLEGAL_CMD. -/
theorem runPacket_next_cases {p : Packet} {s t : State} (h : runPacket p s = .next t) :
    (∃ i, decode p = .ok i ∧ exec i s = .next t) ∨ (∃ e, decode p = .error e ∧ t = raise .illegalCmd s) := by
  unfold runPacket at h
  split at h
  · next i hd => exact .inl ⟨i, hd, h⟩
  · next e hd =>
    cases h
    exact .inr ⟨e, hd, rfl⟩

/-- Everything a micro-step that answers a next state can be. -/
theorem microStep_next_cases {p : Config.Params} {s t : State} (h : microStep p s = .next t) :
    (s.draw.micro = .attempt ∧ t = drawAttempt s) ∨
    (s.draw.micro = .test ∧ t = drawTest s) ∨
    (s.draw.micro = .fetch ∧ p.drawWordCap = some (readUsed s) ∧ t = drawExhaust s) ∨
    (s.draw.micro = .fetch ∧ p.drawWordCap ≠ some (readUsed s) ∧
      ∃ raw e, nextWord s.engine = .ok (raw, e) ∧ t = drawTake raw (setEngine e s)) ∨
    (s.draw.micro = .eval ∧ t = drawEval s) := by
  unfold microStep at h
  split at h
  · next hm =>
    cases h
    exact .inl ⟨hm, rfl⟩
  · next hm =>
    cases h
    exact .inr (.inl ⟨hm, rfl⟩)
  · next hm =>
    unfold drawFetch at h
    split at h
    · next hc =>
      cases h
      exact .inr (.inr (.inl ⟨hm, hc, rfl⟩))
    · next hc =>
      split at h
      · next raw e hn =>
        cases h
        exact .inr (.inr (.inr (.inl ⟨hm, hc, raw, e, hn, rfl⟩)))
      · cases h
  · next hm =>
    cases h
    exact .inr (.inr (.inr (.inr ⟨hm, rfl⟩)))

/-- `drawTake` changes the DRAW registers only. -/
theorem drawTake_eq (raw : Word) (s : State) : drawTake raw s = { s with draw := (drawTake raw s).draw } := by
  unfold drawTake
  split <;> rfl

/-- `drawTest` changes the DRAW registers only. -/
theorem drawTest_eq (s : State) : drawTest s = { s with draw := (drawTest s).draw } := by
  unfold drawTest
  split <;> rfl

/-- EVAL finishes with a response, or goes back to ATTEMPT. -/
theorem drawEval_cases (s : State) :
    (drawAccepts (readAccV s).toNat (readAccD s).toNat (readRange s).toNat = true ∧
      drawEval s = drawFinish (drawResult (readAccV s).toNat (readRange s).toNat (readLow s)) s) ∨
    (drawAccepts (readAccV s).toNat (readAccD s).toNat (readRange s).toNat = false ∧
      drawEval s = setDraw { s.draw with micro := .attempt } s) := by
  unfold drawEval
  split
  · next h => exact .inl ⟨h, rfl⟩
  · next h => exact .inr ⟨by simpa using h, rfl⟩

end Sys2Proof.Machine
end

