-- ==== Sys2Proof/Tests/Slice0.lean ====
section
/-! SUPPORT. Small tests with expected values from 95_test_vectors.md or by hand from the rules, and, for every obligation with
hypotheses, a state and operands that meet them. -/

namespace Sys2Proof.Tests

open Sys2Proof Sys2Proof.Machine

/-! ## Well-formedness (30_encoding.md R78): an ill-formed term for each check -/

theorem test_cfgw_bits_0_ill_formed : Instr.wellFormed (.cfgw 0 5) = false := by decide
theorem test_cfgw_bits_65_ill_formed : Instr.wellFormed (.cfgw 65 5) = false := by decide
theorem test_cfgw_bits_64_well_formed : Instr.wellFormed (.cfgw 64 0) = true := by decide
theorem test_draw_3_2_ill_formed : Instr.wellFormed (.draw 3 2) = false := by decide
theorem test_draw_3_3_well_formed : Instr.wellFormed (.draw 3 3) = true := by decide
theorem test_rdreg_5_ill_formed : Instr.wellFormed (.rdreg 5) = false := by decide
theorem test_rdreg_4_well_formed : Instr.wellFormed (.rdreg 4) = true := by decide

/-! ## Decoding: packets written out from 30_encoding.md R70 to R73, or from 95_test_vectors.md -/

/-- Format N: OP alone. -/
theorem test_decode_hclr : decode 0x01 = .ok .hclr := by decide
theorem test_decode_seedh : decode 0x11 = .ok .seedh := by decide
theorem test_decode_next : decode 0x20 = .ok .next := by decide
/-- Format B8: `imm8` in bits 15..8, P1 line 2. -/
theorem test_decode_hbyte : decode 0x7002 = .ok (.hbyte 0x70) := by decide
/-- Format S64: the seed in bits 71..8; its top bit is packet bit 71. -/
theorem test_decode_seed : decode 0x0000000000000000F060A86B748DBCEC10 = .ok (.seed 0xF060A86B748DBCEC) := by decide
/-- Format CFG: V-C7. -/
theorem test_decode_cfgw : decode 0xFFFFFFFFFFFFFFFF000000000000004030 = .ok (.cfgw 64 0xFFFFFFFFFFFFFFFF) := by decide
/-- Format DR: V-E13. -/
theorem test_decode_draw : decode 0x00000000FFFFFFFF000000000000000040 = .ok (.draw 0 0xFFFFFFFF) := by decide
/-- Format REG: V-E11; the register number is not checked by the decoder. -/
theorem test_decode_rdreg : decode 0x0550 = .ok (.rdreg 5) := by decide
/-- V-E1, V-E1b, V-E1c. -/
theorem test_decode_op_00 : decode 0x00 = .error (.unassignedOp 0x00) := by decide
theorem test_decode_op_03 : decode 0x03 = .error (.unassignedOp 0x03) := by decide
theorem test_decode_op_ff : decode 0xFF = .error (.unassignedOp 0xFF) := by decide
/-- V-E3, V-E4, V-E5, V-E8, V-E9, V-E10, V-E12, V-C6: a set reserved bit. -/
theorem test_decode_reserved :
    decode 0x0120 = .error (.reservedBits 0x20) ∧ decode 0x010002 = .error (.reservedBits 0x02) ∧
    decode 0x0000000000000001000000000000000510 = .error (.reservedBits 0x10) ∧
    decode 0x0000000000000005000000010000000040 = .error (.reservedBits 0x40) ∧
    decode 0x0000000100000000000000000000000040 = .error (.reservedBits 0x40) ∧
    decode 0x0000000000000001000000000000000001 = .error (.reservedBits 0x01) ∧
    decode 0x010050 = .error (.reservedBits 0x50) ∧ decode 0x8030 = .error (.reservedBits 0x30) := by decide

/-! ## Helper states -/

/-- The response a step leaves, with STATUS, or nothing where it stops. -/
def answer : Host.Outcome State Fault Refusal → Option (Option (BitVec 4) × Option Word × Word)
  | .next t => some (t.rsp.status, t.rsp.data, statusWord t)
  | .fault _ => none
  | .refused _ => none

/-- A part of the state a step leaves. -/
def after {α : Type} (f : State → α) : Host.Outcome State Fault Refusal → Option α
  | .next t => some (f t)
  | .fault _ => none
  | .refused _ => none

/-- An engine whose 624 elements all hold `w`. -/
def constEngine (w : Word) (idx : BitVec 10) : Engine :=
  { words := List.replicate 624 (some w), idx := some idx, seeded := true }

/-- The reset state with such an engine. -/
def constState (w : Word) (idx : BitVec 10) : State := { State.reset with engine := constEngine w idx }

/-- A DRAW in progress at a micro-step, range 4 from 10, with given accumulators, on a seeded engine. -/
def busyState (m : MicroStep) (v d : Acc) : State :=
  { constState 0 5 with
    draw := { busy := true, accV := some v, accD := some d, range := some 4, low := some 10, used := some 0, micro := m } }

/-- The host drives these pins and has no move to come. -/
def withPins (rst : Bool) (cmd : Option Packet) (ready : Bool) (s : State) : State :=
  { s with host := { pins := { rst := rst, cmd := cmd, rspReady := ready }, schedule := [] } }

/-! ## SeedHash -/

/-- V-H7: byte 0x80 from HASH 0 is sign-extended. -/
theorem test_hbyte_sign_extends :
    answer (exec (.hbyte 0x80) State.reset) = some (some 0, some 0xFFFFFFFFFFFFFF80, 0) := by decide
/-- V-H8: 0x80 and then "a". -/
theorem test_hbyte_wraps :
    after (·.hash) (exec (.hbyte 0x61) (setHash 0xFFFFFFFFFFFFFF80 false State.reset)) =
      some { value := 0xFFFFFFFFFF7FE0E1, term := false } := by decide
/-- V-H7 and V-H8 with HASH_SIGNED_BYTES = false. -/
theorem test_hbyte_zero_extends :
    (hbyteWith { hashSignedBytes := false, drawWordCap := none } 0x80 State.reset).hash.value = 0x80 ∧
    hashStep { hashSignedBytes := false, drawWordCap := none } 0x80 0x61 = 0x801FE1 := by decide
/-- V-H9: "a", NUL, "b". -/
theorem test_hbyte_nul_then_ignored :
    after (·.hash) (exec (.hbyte 0) (setHash 0x61 false State.reset)) = some { value := 0x61, term := true } ∧
    answer (exec (.hbyte 0x62) (setHash 0x61 true State.reset)) = some (some 0, some 0x61, 2) := by decide
/-- R101: HCLR clears HASH_TERM as well. -/
theorem test_hclr : after (·.hash) (exec .hclr (setHash 7 true State.reset)) = some { value := 0, term := false } := by
  decide
/-- V-H5: the hash of "pasword". -/
theorem test_hash_pasword :
    hashOf thisHardware [0x70, 0x61, 0x73, 0x77, 0x6F, 0x72, 0x64] = 0xF060A86B748DBCEC := by decide

/-! ## TwisterEngine -/

/-- V-T5, V-T6, V-T7, V-T8. -/
theorem test_twist :
    twist 0xFFFFFFFFFFFFFFFF 0xFFFFFFFFFFFFFFFF = 0xCAFD90A55699E616 ∧
    twist 0xFFFFFFFF80000000 0x7FFFFFFE = 0x7FFFFFFFFFFFFFFF ∧
    twist 0x0123456789ABCDEF 0xFEDCBA9876543210 = 0x0091A2B3FB2A1908 ∧ twist 0 3 = 0xB5026F5AA96619E8 := by decide
/-- V-M2, V-M3, V-M6. -/
theorem test_temper :
    temper 1 = 0x0040002000020801 ∧ temper 0xFFFFFFFFFFFFFFFF = 0x7BFEEEEFEFA1D577 ∧
    temper 0x0123456789ABCDEF = 0x2254DA7001198660 := by decide
/-- V-I3: the first and the last word of the recurrence, and the first element left unwritten. -/
theorem test_seed_words :
    (initWords 5489)[1]? = some (some 0xB5347F47116BD3DE) ∧ (initWords 5489)[312]? = some (some 0xECE77A7D39D2D169) ∧
    (initWords 5489)[313]? = some none := by decide +kernel
/-- V-R3: IDX after a seeding; the response is the seed. -/
theorem test_seed :
    after (·.engine.idx) (exec (.seed 5489) State.reset) = some (some 312) ∧
    answer (exec (.seed 5489) State.reset) = some (some 0, some 0x1571, 1) := by decide
/-- V-I4: SEEDH seeds with HASH. -/
theorem test_seedh :
    after (fun t => t.engine.words[1]?) (exec .seedh (setHash 0xF060A86B748DBCEC true State.reset)) =
      some (some (some 0xA64CD64EB8BFC704)) := by decide
/-- V-N3: iteration 1 of the half refill after SEED 5489. -/
theorem test_half_refill_first_write :
    (match halfBody 1 (initWords 5489) with
      | .ok ws => ws[312]?
      | .error _ => none) = some (some 0x245B1C66F2BDC210) := by decide +kernel
/-- R130: at k = 156 the sentinel stands for the element read; with all words 0, Twist(0, 0) = 0. -/
theorem test_full_refill_sentinel :
    (match fullBody1 156 (List.replicate 624 (some 0)) with
      | .ok ws => ws[156]?
      | .error _ => none) = some (some 0x5555555555555555) := by decide +kernel
/-- V-N1's word (V-M7), NORMAL. -/
theorem test_next_normal :
    answer (exec .next (constState 0x245B1C66F2BDC210 5)) = some (some 0, some 0xC96D191CF6F6AEA6, 1) ∧
    after (·.engine.idx) (exec .next (constState 0x245B1C66F2BDC210 623)) = some (some 624) := by decide +kernel
/-- V-E2. -/
theorem test_next_unseeded : answer (exec .next State.reset) = some (some 2, some 0, 0x24) := by decide
/-- 00_scope.md R13: an unwritten element is the modelling fault, never a value. -/
theorem test_next_unwritten_is_a_fault :
    exec .next { State.reset with engine := { State.reset.engine with idx := some 7, seeded := true } } =
      .fault (.unwrittenRead 7) := by rfl

/-! ## RangeSampler -/

/-- V-C3, V-C1. -/
theorem test_cfgw :
    after (·.cfg) (exec (.cfgw 64 7) State.reset) = some { bits := 64, max := 7 } ∧
    after (·.cfg) (exec (.cfgw 1 0) State.reset) = some { bits := 1, max := 0 } := by decide
/-- V-C4. -/
theorem test_cfgw_65 :
    answer (exec (.cfgw 65 5) State.reset) = some (some 4, some 0, 0x44) ∧
    after (·.cfg) (exec (.cfgw 65 5) State.reset) = some { bits := 64, max := 0xFFFFFFFFFFFFFFFF } := by decide
/-- V-D5, V-E6. -/
theorem test_draw_degenerate_and_reversed :
    answer (exec (.draw 7 7) (constState 0 312)) = some (some 0, some 7, 1) ∧
    answer (exec (.draw 3 2) (constState 0 312)) = some (some 3, some 0, 0x35) := by decide
/-- R161, R163: the full range is 2^32, which needs the 33rd bit. -/
theorem test_draw_full_range :
    after (fun t => (t.draw.busy, t.draw.range)) (exec (.draw 0 0xFFFFFFFF) (constState 0 312)) =
      some (true, some 0x100000000) := by decide
/-- V-S1 and V-S2 at EVAL: the edge test accepts. -/
theorem test_eval_edge :
    answer (.next (drawEval (busyState .eval 3 3))) = some (some 0, some 13, 1) := by decide
/-- V-S3 at FETCH: 7 is above CFG_MAX 3 and is discarded, with no shift; 2 is accepted. -/
theorem test_fetch_discards :
    (drawTake 7 (setCfg 2 3 (busyState .fetch 0 0))).draw.micro = .fetch ∧
    (drawTake 2 (setCfg 2 3 (busyState .fetch 0 0))).draw.accV = some 2 ∧
    (drawTake 2 (setCfg 2 3 (busyState .fetch 0 0))).draw.accD = some 3 := by decide
/-- V-S5: 0xF, 0xF on range 5 is rejected; V-S16: 3, 5 on range 4 is accepted. -/
theorem test_acceptance : drawAccepts 0xF 0xF 5 = false ∧ drawAccepts 3 5 4 = true ∧ drawAccepts 6 7 6 = false := by
  decide
/-- V-S5 and V-S7, the whole loop. -/
theorem test_draw_loop :
    drawLoop 2 3 5 0 0 0 [3, 3, 0, 1] = some (1, []) ∧
    drawLoop 64 (2 ^ 64 - 1) 100 1 0 0 [0xFFFFFFFFFFFFFFF0, 5] = some (6, []) := by decide
/-- V-D3, the check of 95_test_vectors.md: the low 32 bits of the raw word. -/
theorem test_draw_result : drawResult 0xC96D191CF6F6AEA6 (2 ^ 32) 0 = 0xF6F6AEA6 := by decide
/-- R170: under a cap of 3 the FETCH after three words faults. -/
theorem test_word_cap :
    answer (microStep { hashSignedBytes := true, drawWordCap := some 3 }
      (setDraw { (busyState .fetch 0 0).draw with used := some 3 } (busyState .fetch 0 0))) =
        some (some 5, some 0, 0x55) := by decide

/-! ## RDREG -/

/-- V-R2, V-R3. -/
theorem test_rdreg :
    answer (exec (.rdreg 3) State.reset) = some (some 0, some 0x40, 0) ∧
    answer (exec (.rdreg 4) State.reset) = some (some 0, some 0xFFFFFFFFFFFFFFFF, 0) ∧
    answer (exec (.rdreg 2) (constState 0 312)) = some (some 0, some 0x138, 1) := by decide
/-- V-R4, V-E11. -/
theorem test_rdreg_faults :
    answer (exec (.rdreg 2) State.reset) = some (some 2, some 0, 0x24) ∧
    answer (exec (.rdreg 5) State.reset) = some (some 1, some 0, 0x14) := by decide

/-! ## Steps -/

/-- V-E1 through the ports: an ILLEGAL packet is answered with ILLEGAL_CMD and the machine goes on. -/
theorem test_step_illegal : answer (step (State.reset.withFetchWord 136 0xFF)) = some (some 1, some 0, 0x14) := by decide
/-- P6: a packet offered while a DRAW runs is not accepted. -/
theorem test_step_busy_keeps_offer :
    after (·.host.pins.cmd) (step (withPins false (some 0x50) true (busyState .attempt 0 0))) = some (some 0x50) := by
  decide
/-- P6, R241: `rst` ends the DRAW, with no response. -/
theorem test_step_reset_ends_draw :
    after (fun t => (t.draw.busy, t.rsp.valid, t.engine.seeded, cmdReady t))
      (step (withPins true none true (busyState .fetch 0 0))) = some (false, false, false, true) := by decide
/-- R253: the host withdraws its packet before it is accepted, and nothing runs. -/
theorem test_step_withdrawn :
    after (fun t => (t.rsp.valid, t.host.pins.cmd))
      (step { withPins false (some 0x20) false State.reset with
        host := { pins := { rst := false, cmd := some 0x20, rspReady := false }
                  schedule := [.drive { rst := false, cmd := none, rspReady := false }] } }) =
      some (false, none) := by decide

/-! ## Assembler (30_encoding.md R83, R84) -/

/-- P1 line 11, its spelling, and P1 line 2's character literal. -/
theorem test_assemble :
    assembleText "DRAW 1, 100 ; a die".toList = some [.draw 1 100] ∧
    assembleText "HBYTE 'p'".toList = some [.hbyte 0x70] ∧
    assembleText "RDREG IDX".toList = some [.rdreg 2] ∧ assembleText "CFGREF".toList = some [.cfgw 64 0xFFFFFFFFFFFFFFFF] ∧
    assembleText "SEED 0x1571".toList = some [.seed 5489] ∧ assembleText "HBYTE 256".toList = none := by
  decide +kernel
/-- A character literal from U+0080 up, the model's choice (log entry 21): its code point where that is a byte. -/
theorem test_assemble_character :
    assembleText ['H', 'B', 'Y', 'T', 'E', ' ', Char.ofNat 39, Char.ofNat 0xE9, Char.ofNat 39] = some [.hbyte 0xE9] ∧
    assembleText ['H', 'B', 'Y', 'T', 'E', ' ', Char.ofNat 39, Char.ofNat 0x100, Char.ofNat 39] = none := by decide +kernel
/-- V-H9 as a string with a `\0`. -/
theorem test_assemble_string :
    assembleText "HSTR \"a\\0b\"".toList = some [.hclr, .hbyte 0x61, .hbyte 0, .hbyte 0x62] := by decide +kernel
/-- The packet of P1 line 11 in both spellings. -/
theorem test_spellings :
    packetHex (encode (.draw 1 100)) = "0000000000000064000000000000000140".toList ∧
    packetFields (encode (.draw 1 100)) = "40/0000000000000001/0000000000000064".toList := by decide +kernel

/-! ## Witnesses: for each obligation with hypotheses, inputs that meet them all; one per clause -/

theorem witness_LegalPacketIsTheEncodingOfItsCommand :
    decode 0xFFFFFFFFFFFFFFFF000000000000007F30 = .ok (.cfgw 127 0xFFFFFFFFFFFFFFFF) := by decide
theorem witness_LegalPacketsAreThoseOfOneTableRow :
    decode 0x00000000FFFFFFFF00000000FFFFFFFF40 = .ok (.draw 0xFFFFFFFF 0xFFFFFFFF) ∧
    (∀ r ∈ opcodeTable, r.covers 0x51 = false) := by decide
theorem witness_RejectedPacketsAreNamed :
    (opcodeTable[6] ∈ opcodeTable ∧ opOf 0x010000000040 = opOf opcodeTable[6].bits ∧
      opcodeTable[6].covers 0x010000000040 = false) ∧
    (∀ r ∈ opcodeTable, opOf 0xFF ≠ opOf r.bits) := by decide
theorem witness_StepRunsTheDecodedCommand :
    let s := withPins false (some 0x20) false State.reset
    (hostMove s).host.pins.rst = false ∧ cmdReady (hostMove s) = true ∧ (hostMove s).host.pins.cmd = some 0x20 ∧
      decode 0x20 = .ok .next := by decide
theorem witness_PlacedWordRunsNext :
    decodeTableWord 136 0x50 = some (.rdreg 0) ∧ decodeTableWord 8 0x50 = some (.rdreg 0) := by decide
theorem witness_IllegalCommandsRaiseIllegalCmd :
    (let s := withPins false (some 0x0120) false State.reset;
      (hostMove s).host.pins.rst = false ∧ cmdReady (hostMove s) = true ∧ (hostMove s).host.pins.cmd = some 0x0120 ∧
        decode 0x0120 = .error (.reservedBits 0x20)) ∧
    (∀ r ∈ opcodeTable, opOf 0x51 ≠ opOf r.bits) ∧
    (opOf 0x0120 = opOf opcodeTable[4].bits ∧ opcodeTable[4].covers 0x0120 = false) ∧
    4 < (5 : BitVec 8).toNat := by decide
theorem witness_ResetLeavesTheStatedValues :
    (hostMove (withPins true (some 0x20) true (busyState .fetch 0 0))).host.pins.rst = true := by decide
theorem witness_OfferWaitsWhileNotReady :
    (let s := withPins false (some 0x20) true (busyState .attempt 0 0);
      (hostMove s).host.pins.rst = false ∧ cmdReady (hostMove s) = false ∧ ∃ t, step s = .next t) ∧
    (let s := withPins false (some 0x20) false (answered 0 State.reset);
      cmdReady (hostMove s) = false ∧ (hostMove s).rsp.valid = true ∧ (hostMove s).host.pins.rspReady = false ∧
        (hostMove s).draw.busy = false ∧ ∃ t, step s = .next t) :=
  ⟨⟨by decide, by decide, _, rfl⟩, by decide, by decide, by decide, by decide, _, rfl⟩
theorem witness_TakingAResponseClearsRspValid :
    let s := withPins false none true (answered 0 State.reset)
    (hostMove s).host.pins.rst = false ∧ (hostMove s).rsp.valid = true ∧ (hostMove s).host.pins.rspReady = true := by
  decide
theorem witness_IdleBlockKeepsItsState :
    (hostMove State.reset).host.pins.rst = false ∧ cmdReady (hostMove State.reset) = true ∧
      (hostMove State.reset).host.pins.cmd = none := by decide
theorem witness_RespondWritesResponseAndErrorRecord :
    statusCode .illegalCmd ≠ 0 ∧ statusCode .samplingExhausted ≠ 0 ∧ statusCode .ok = 0 := by decide
theorem witness_ErrorRecordFollowsTheStatus :
    (let s := withPins false (some 0x20) false State.reset;
      (hostMove s).host.pins.rst = false ∧ s.rsp.valid = false ∧
        ∃ t, step s = .next t ∧ t.rsp.valid = true ∧ t.rsp.status = some 2) ∧
    (let s := withPins false (some 0x01) false State.reset;
      ∃ t, step s = .next t ∧ t.rsp.valid = true ∧ t.rsp.status = some 0) ∧
    (let s := withPins false none true (faulted 1 State.reset);
      (hostMove s).host.pins.rst = false ∧ s.err.sticky = true ∧ ∃ t, step s = .next t) :=
  ⟨⟨by decide, by decide, _, rfl, rfl, rfl⟩, ⟨_, rfl, rfl, rfl⟩, by decide, by decide, _, rfl⟩
theorem witness_FaultedCommandChangesOnlyTheRecord :
    (∃ t, runPacket 0xFF State.reset = .next t ∧ State.reset.rsp.valid = false ∧ t.rsp.valid = true ∧
      t.rsp.status = some 1) ∧
    (∃ t, microStep { hashSignedBytes := true, drawWordCap := some 0 } (busyState .fetch 0 0) = .next t ∧
      (busyState .fetch 0 0).rsp.valid = false ∧ t.rsp.valid = true ∧ t.rsp.status = some 5) :=
  ⟨⟨_, rfl, rfl, rfl, rfl⟩, _, rfl, rfl, rfl, rfl⟩
theorem witness_StatusCodesOfEachCommand :
    (∃ t, exec (.rdreg 2) State.reset = .next t ∧ t.rsp.valid = true ∧ t.rsp.status = some 2) ∧
    (∃ t, exec (.draw 3 2) (constState 0 312) = .next t ∧ t.rsp.valid = true ∧ t.rsp.status = some 3) ∧
    (∃ t, exec (.cfgw 65 0) State.reset = .next t ∧ t.rsp.valid = true ∧ t.rsp.status = some 4) ∧
    (∃ t, exec .hclr State.reset = .next t ∧ t.rsp.valid = true ∧ t.rsp.status = some 0) ∧
    (∃ t, microStep thisHardware (busyState .eval 3 3) = .next t ∧ (busyState .eval 3 3).rsp.valid = false ∧
      t.rsp.valid = true ∧ t.rsp.status = some 0) :=
  ⟨⟨_, rfl, rfl, rfl⟩, ⟨_, rfl, rfl, rfl⟩, ⟨_, rfl, rfl, rfl⟩, ⟨_, rfl, rfl, rfl⟩, _, rfl, rfl, rfl, rfl⟩
theorem witness_UnseededEngineFaultsNotSeeded : State.reset.engine.seeded = false := by decide
theorem witness_BadOperandsFaultByName :
    ((constState 0 312).engine.seeded = true ∧ (0xFFFFFFFE : BitVec 32).toNat < (0xFFFFFFFF : BitVec 32).toNat) ∧
    (0 : BitVec 7).toNat = 0 ∧ 64 < (65 : BitVec 7).toNat := by decide
theorem witness_HbyteFeedsOneByte :
    (setHash 0 true State.reset).hash.term = true ∧ State.reset.hash.term = false ∧ (0xFF : BitVec 8) ≠ 0 := by decide
theorem witness_HashByteExtension :
    thisHardware.hashSignedBytes = true ∧ 0x80 ≤ (0x80 : BitVec 8).toNat ∧ 1 ≤ (0x7F : BitVec 8).toNat ∧
      (0x7F : BitVec 8).toNat < 0x80 := by decide
theorem witness_TemperIsTheFourStepCascade :
    ∃ x a b c : Word, a = x ^^^ ((x >>> 29) &&& 0x5555555555555555) ∧ b = a ^^^ ((a <<< 17) &&& 0x71D67FFFEDA60000) ∧
      c = b ^^^ ((b <<< 37) &&& 0xFFF7EEE000000000) := ⟨1, _, _, _, rfl, rfl, rfl⟩

/-- An array of 624 equal words is written. -/
theorem written_const (n : Nat) (w : Word) (h : n ≤ 624) : Written n (List.replicate 624 (some w)) :=
  fun i hi => ⟨w, by rw [List.getElem?_replicate]; simp [Nat.lt_of_lt_of_le hi h]⟩

/-- Such an engine is sound at every IDX in range. -/
theorem constEngine_inv (w : Word) (idx : BitVec 10) (h : idx.toNat ≤ 624) : EngineInv (constEngine w idx) where
  size := List.length_replicate
  unseeded := fun h' => by cases h'
  seeded := fun _ => ⟨idx, rfl, h, written_const 313 w (by omega), fun _ => written_const 624 w le_rfl⟩

/-- A DRAW in progress on it is sound, at EVAL with ACC_D at least D_RANGE − 1. -/
theorem busyState_inv (m : MicroStep) (d : Acc) (h : m = .eval → 3 ≤ d.toNat) : Inv (busyState m 0 d) where
  engine := constEngine_inv 0 5 (by decide)
  cfg := (⟨by decide, by decide⟩ : CfgInv { bits := 64, max := 0xFFFFFFFFFFFFFFFF })
  err := ⟨fun _ => rfl, fun h' => by cases h'⟩
  rsp := fun h' => by cases h'
  draw := fun _ => ⟨rfl, rfl, 4, 10, 0, rfl, rfl, rfl, by decide, by decide,
    fun _ => ⟨0, d, rfl, rfl, fun k _ => Nat.two_pow_pos k, h⟩⟩

theorem witness_HalfRefillWritesTheUpperHalf :
    (List.replicate 624 (some (1 : Word))).length = 624 ∧ Written 313 (List.replicate 624 (some 1)) :=
  ⟨List.length_replicate, written_const 313 1 (by omega)⟩
theorem witness_FullRefillWritesTheLowerHalf :
    (List.replicate 624 (some (1 : Word))).length = 624 ∧ Written 624 (List.replicate 624 (some 1)) :=
  ⟨List.length_replicate, written_const 624 1 le_rfl⟩
theorem witness_NextAnswersOneTemperedWord :
    ∀ v ∈ [(0 : BitVec 10), 311, 312, 313, 623, 624],
      (constState 1 v).engine.seeded = true ∧ (constState 1 v).engine.idx = some v ∧ EngineInv (constState 1 v).engine :=
  fun v hv => ⟨rfl, rfl, constEngine_inv 1 v (by fin_cases hv <;> decide)⟩
theorem witness_RefillPeriodicity : (0 + 1) % 624 = 1 ∧ (312 + 1) % 624 = 313 ∧ (1 + 1) % 624 ≠ 1 ∧ (1 + 1) % 624 ≠ 313 := by
  decide
/-- A NEXT, a FETCH, and the call numbers 313 and 937. -/
theorem witness_SeedWordIsKeptAndReturned :
    (let s := withPins false (some 0x20) false (constState 0 5);
      (hostMove s).host.pins.rst = false ∧ cmdReady (hostMove s) = true ∧ (hostMove s).host.pins.cmd = some 0x20 ∧
        decode 0x20 = .ok .next ∧ ∃ t, step s = .next t) ∧
    (let s := withPins false (some 0x11) false (busyState .fetch 0 0);
      (hostMove s).host.pins.rst = false ∧ cmdReady (hostMove s) = false ∧ ∃ t, step s = .next t) ∧
    313 % 624 = 313 ∧ (936 < 937 ∧ (936 + 1) % 624 = 313) :=
  ⟨⟨by decide, by decide, by decide, by decide, _, rfl⟩, ⟨by decide, by decide, _, rfl⟩, by decide, by decide⟩
theorem witness_NextWordPeriodicity : (624 + 1) % 624 = 1 ∧ (936 + 1) % 624 = 313 ∧ (311 + 1 + 312) % 624 = 0 ∧
    (623 + 1) % 624 ≠ 1 ∧ (623 + 1) % 624 ≠ 313 := by decide
theorem witness_WordsDependOnTheSeedAlone :
    (∃ t t', exec (.seed 1) State.reset = .next t ∧ exec (.seed 1) (constState 0 5) = .next t') ∧
    (∃ t, exec (.cfgw 1 0) (constState 0 5) = .next t) := ⟨⟨_, _, rfl, rfl⟩, _, rfl⟩
theorem witness_IdxStaysInRange :
    IdxInRange (withPins false (some 0x20) false (constState 0 5)).engine ∧
      ∃ t, step (withPins false (some 0x20) false (constState 0 5)) = .next t :=
  ⟨fun _ => ⟨5, rfl, by decide⟩, _, rfl⟩
theorem witness_OnlyEngineCommandsChangeTheEngine :
    let s := withPins false (some 0x20) false (constState 0 5)
    (hostMove s).host.pins.rst = false ∧ s.engine.seeded = true ∧
      ∃ t, step s = .next t ∧ t.engine.idx ≠ s.engine.idx := ⟨by decide, by decide, _, rfl, by decide⟩
theorem witness_CfgwWritesTheConfiguration :
    1 ≤ (1 : BitVec 7).toNat ∧ (1 : BitVec 7).toNat ≤ 64 ∧ 1 ≤ (64 : BitVec 7).toNat ∧ (64 : BitVec 7).toNat ≤ 64 := by
  decide
theorem witness_DegenerateDrawConsumesNoWord :
    (constState 0 312).engine.seeded = true ∧ State.reset.engine.seeded = false := by decide
theorem witness_DrawStartsWithTheExactRange :
    (constState 0 312).engine.seeded = true ∧ (0 : BitVec 32).toNat < (0xFFFFFFFF : BitVec 32).toNat ∧
      (0xFFFFFFFE : BitVec 32).toNat < (0xFFFFFFFF : BitVec 32).toNat := by decide
theorem witness_AttemptAndTestMicroSteps :
    (let s := busyState .attempt 0 0;
      BlockMovesIn s s ∧ s.draw.busy = true ∧ s.draw.micro = .attempt) ∧
    (∀ d : Acc, let s := busyState .test 1 d;
      BlockMovesIn s s ∧ s.draw.busy = true ∧ s.draw.micro = .test ∧ s.draw.accV = some 1 ∧ s.draw.accD = some d ∧
        s.draw.range = some 4) ∧
    (2 : Acc).toNat < (4 : BitVec 33).toNat - 1 ∧ (4 : BitVec 33).toNat - 1 ≤ (3 : Acc).toNat :=
  ⟨⟨⟨rfl, rfl, rfl⟩, rfl, rfl⟩, fun _ => ⟨⟨rfl, rfl, rfl⟩, rfl, rfl, rfl, rfl, rfl⟩, by decide, by decide⟩

/-- FETCH of a word above CFG_MAX (V-D8's first raw and ceiling). -/
theorem witness_FetchDrawsOneWord_discards :
    let s := setEngine (constEngine 0x245B1C66F2BDC210 5) (setCfg 64 0x7FFFFFFFFFFFFFFF (busyState .fetch 0 0))
    BlockMovesIn s s ∧ s.draw.busy = true ∧ s.draw.micro = .fetch ∧ s.draw.accV = some 0 ∧ s.draw.accD = some 0 ∧
      s.draw.used = some 0 ∧ (∃ e, nextWord s.engine = .ok (temper 0x245B1C66F2BDC210, e)) ∧
      s.cfg.max.toNat < (temper 0x245B1C66F2BDC210).toNat :=
  ⟨⟨rfl, rfl, rfl⟩, rfl, rfl, rfl, rfl, rfl, ⟨_, rfl⟩, by decide⟩
/-- FETCH of a word CFG_MAX admits: 0, under the least ceiling. -/
theorem witness_FetchDrawsOneWord_accepts :
    let s := setCfg 64 0 (busyState .fetch 0 0)
    BlockMovesIn s s ∧ s.draw.busy = true ∧ s.draw.micro = .fetch ∧ s.draw.accV = some 0 ∧ s.draw.accD = some 0 ∧
      s.draw.used = some 0 ∧ (∃ e, nextWord s.engine = .ok (0, e)) ∧ (0 : Word).toNat ≤ s.cfg.max.toNat :=
  ⟨⟨rfl, rfl, rfl⟩, rfl, rfl, rfl, rfl, rfl, ⟨_, rfl⟩, by decide⟩
/-- EVAL on range 4: the edge test (2, 3), the quotients (3, 7), and neither (5, 6). -/
theorem witness_EvalFinishesOrRestarts :
    (∀ v d : Acc, let s := busyState .eval v d;
      BlockMovesIn s s ∧ s.draw.busy = true ∧ s.draw.micro = .eval ∧ s.draw.accV = some v ∧ s.draw.accD = some d ∧
        s.draw.range = some 4 ∧ s.draw.low = some 10) ∧
    ((3 : Acc).toNat % (4 : BitVec 33).toNat = (4 : BitVec 33).toNat - 1 ∧ (3 : Acc).toNat >>> 32 = 0) ∧
    (3 : Acc).toNat / (4 : BitVec 33).toNat < (7 : Acc).toNat / (4 : BitVec 33).toNat ∧
    ((6 : Acc).toNat / (4 : BitVec 33).toNat ≤ (5 : Acc).toNat / (4 : BitVec 33).toNat ∧
      (6 : Acc).toNat % (4 : BitVec 33).toNat ≠ (4 : BitVec 33).toNat - 1) :=
  ⟨fun _ _ => ⟨⟨rfl, rfl, rfl⟩, rfl, rfl, rfl, rfl, rfl, rfl⟩, by decide⟩
theorem witness_WordCapEndsTheDraw :
    (busyState .fetch 0 0).draw.micro = .fetch ∧ (busyState .fetch 0 0).draw.used = some 0 := by decide
theorem witness_AccumulatorsLoseNoBit_test :
    let s := busyState .test 0 2
    Inv s ∧ BlockMovesIn s s ∧ s.draw.busy = true ∧ s.draw.micro = .test ∧ s.draw.accV = some 0 ∧ s.draw.accD = some 2 ∧
      s.draw.range = some 4 ∧ (2 : Acc).toNat < (4 : BitVec 33).toNat - 1 :=
  ⟨busyState_inv .test 2 (fun h => by cases h), ⟨rfl, rfl, rfl⟩, rfl, rfl, rfl, rfl, rfl, by decide⟩
theorem witness_AccumulatorsLoseNoBit_fetch :
    let s := busyState .fetch 0 0
    Inv s ∧ BlockMovesIn s s ∧ s.draw.busy = true ∧ s.draw.micro = .fetch ∧ s.draw.accV = some 0 ∧ s.draw.accD = some 0 ∧
      (∃ e, nextWord s.engine = .ok (0, e)) ∧ (0 : Word).toNat ≤ s.cfg.max.toNat :=
  ⟨busyState_inv .fetch 0 (fun h => by cases h), ⟨rfl, rfl, rfl⟩, rfl, rfl, rfl, rfl, ⟨_, rfl⟩, by decide⟩
theorem witness_DrawResultLiesInItsBounds :
    let s := busyState .eval 0 3
    Inv s ∧ BlockMovesIn s s ∧ s.draw.busy = true ∧ s.draw.low = some 10 ∧ s.draw.range = some 4 ∧
      ∃ t, step s = .next t ∧ t.draw.busy = false :=
  ⟨busyState_inv .eval 3 (fun _ => by decide), ⟨rfl, rfl, rfl⟩, rfl, rfl, rfl, _, rfl, rfl⟩
theorem witness_ReferenceConfigurationAcceptance_fetch :
    let s := busyState .fetch 0 0
    BlockMovesIn s s ∧ s.draw.busy = true ∧ s.draw.micro = .fetch ∧ s.cfg.max = 0xFFFFFFFFFFFFFFFF ∧
      ∃ e, nextWord s.engine = .ok (0, e) := ⟨⟨rfl, rfl, rfl⟩, rfl, rfl, rfl, _, rfl⟩
/-- An attempt on range 4 with the raw word 0, which is below 4 times the quotient; 2^64 − 4 is not. -/
theorem witness_ReferenceConfigurationAcceptance_attempt :
    (let s := busyState .attempt 0 0;
      Inv s ∧ NoReset s.host ∧ s.draw.busy = true ∧ s.draw.micro = .attempt ∧ s.cfg.max = 0xFFFFFFFFFFFFFFFF ∧
        s.draw.range = some 4 ∧ s.draw.low = some 10 ∧ s.draw.used = some 0 ∧ ∃ e, nextWord s.engine = .ok (0, e)) ∧
    (0 : Word).toNat < (2 ^ 64 - 1) / (4 : BitVec 33).toNat * (4 : BitVec 33).toNat ∧
    (2 ^ 64 - 1) / (4 : BitVec 33).toNat * (4 : BitVec 33).toNat ≤ (0xFFFFFFFFFFFFFFFC : Word).toNat :=
  ⟨⟨busyState_inv .attempt 0 (fun h => by cases h), ⟨rfl, fun _ h => by cases h⟩, rfl, rfl, rfl, rfl, rfl, rfl, _, rfl⟩,
    by decide, by decide⟩
/-- The ranges 2 and 2^32, and the raws on both sides of the last full block of range 100. -/
theorem witness_ReferenceConfigurationAcceptance_ranges :
    2 ≤ 100 ∧ 2 ≤ 2 ^ 32 ∧ 0xFFFFFFFFFFFFFFEF < 2 ^ 64 ∧ 0xFFFFFFFFFFFFFFF0 < 2 ^ 64 ∧
    drawAccepts 0xFFFFFFFFFFFFFFEF (2 ^ 64 - 1) 100 = true ∧ drawAccepts 0xFFFFFFFFFFFFFFF0 (2 ^ 64 - 1) 100 = false := by
  decide
theorem witness_ZeroCeilingDrawNeverEnds :
    let s := setCfg 64 0 (busyState .fetch 0 0)
    Inv s ∧ NoReset s.host ∧ s.draw.busy = true ∧ s.cfg.max = 0 ∧ s.draw.micro ≠ .eval ∧ s.draw.accD = some 0 :=
  ⟨{ busyState_inv .fetch 0 (fun h => by cases h) with cfg := ⟨by decide, by decide⟩ }, ⟨rfl, fun _ h => by cases h⟩, rfl,
    rfl, by decide, rfl⟩
theorem witness_MicroStepsComputeTheDrawLoop :
    let s := setCfg 2 3 (busyState .attempt 0 0)
    Inv s ∧ NoReset s.host ∧ s.draw.busy = true ∧ s.draw.micro = .attempt ∧ s.draw.used = some 0 ∧
      s.draw.range = some 4 ∧ s.draw.low = some 10 ∧ (∃ e, nextWords 1 s.engine = .ok ([0], e)) ∧
      drawLoop s.cfg.bits.toNat s.cfg.max.toNat 4 10 0 0 [0] = some (10, []) :=
  ⟨{ busyState_inv .attempt 0 (fun h => by cases h) with cfg := ⟨by decide, by decide⟩ }, ⟨rfl, fun _ h => by cases h⟩,
    rfl, rfl, rfl, rfl, rfl, ⟨_, rfl⟩, by decide⟩
theorem witness_RdregAnswersTheRegister :
    (constState 0 624).engine.seeded = true ∧ (constState 0 624).engine.idx = some 624 := by decide
theorem witness_CommandFrames : ∃ t, exec (.draw 1 2) (constState 0 5) = .next t := ⟨_, rfl⟩
theorem witness_MicroStepFrame : ∃ t, microStep thisHardware (busyState .test 0 0) = .next t ∧
    (busyState .test 0 0).draw.micro ≠ .fetch := ⟨_, rfl, by decide⟩
theorem witness_StepKeepsTheInvariant : Inv (busyState .fetch 0 0) ∧ ∃ t, step (busyState .fetch 0 0) = .next t :=
  ⟨busyState_inv .fetch 0 (fun h => by cases h), _, rfl⟩
theorem witness_SoundStateAlwaysSteps : Inv (busyState .eval 0 3) := busyState_inv .eval 3 (fun _ => by decide)
theorem witness_AssemblerNeverTruncates :
    assembleLine (.cfgw 127 (2 ^ 64 - 1)) = some [.cfgw 127 0xFFFFFFFFFFFFFFFF] ∧
    assembleLine (.cfgw 128 0) = none := by decide

end Sys2Proof.Tests
end

section
/-! PROOFS. The statements of 10_state.md: what the error record, the engine and STATUS do over a command and over a step.
First what each command can answer, once; then how a step moves the error record, and how it moves the engine. -/

namespace Sys2Proof.Machine

/-! ### What each command can answer -/

/-- NEXT answers a word and advances the engine, or faults unseeded. -/
theorem exec_next_cases {s t : State} (h : exec .next s = .next t) :
    (s.engine.seeded = true ∧ ∃ w e, nextWord s.engine = .ok (w, e) ∧ t = respond .ok w (setEngine e s)) ∨
    (s.engine.seeded = false ∧ t = raise .notSeeded s) := by
  change execNext s = .next t at h
  unfold execNext at h
  split at h
  · next hs =>
    split at h
    · next w e hn =>
      cases h
      exact .inl ⟨hs, w, e, hn, rfl⟩
    · cases h
  · next hs =>
    cases h
    exact .inr ⟨by simpa using hs, rfl⟩

/-- CFGW writes the configuration, or faults on its bit count. -/
theorem exec_cfgw_cases {bits : BitVec 7} {max : Word} {s t : State} (h : exec (.cfgw bits max) s = .next t) :
    (legalBits bits = true ∧ t = respond .ok 0 (setCfg bits max s)) ∨
    (legalBits bits = false ∧ t = raise .configError s) := by
  change execCfgw bits max s = .next t at h
  unfold execCfgw at h
  split at h
  · next hb =>
    cases h
    exact .inl ⟨hb, rfl⟩
  · next hb =>
    cases h
    exact .inr ⟨by simpa using hb, rfl⟩

/-- DRAW faults unseeded or on its bounds, answers `low` on a range of 1, or begins. -/
theorem exec_draw_cases {low high : BitVec 32} {s t : State} (h : exec (.draw low high) s = .next t) :
    (s.engine.seeded = false ∧ t = raise .notSeeded s) ∨
    (s.engine.seeded = true ∧ high.toNat < low.toNat ∧ t = raise .invalidRange s) ∨
    (s.engine.seeded = true ∧ low.toNat ≤ high.toNat ∧ drawRange low high ≤ 1 ∧
      t = respond .ok (low.setWidth 64) s) ∨
    (s.engine.seeded = true ∧ low.toNat ≤ high.toNat ∧ 1 < drawRange low high ∧
      t = drawStart (drawRange low high) low s) := by
  change execDraw low high s = .next t at h
  unfold execDraw at h
  split at h
  · next hs =>
    split at h
    · next hlt =>
      cases h
      exact .inr (.inl ⟨hs, hlt, rfl⟩)
    · next hlt =>
      split at h
      · next hr =>
        cases h
        exact .inr (.inr (.inl ⟨hs, Nat.le_of_not_lt hlt, hr, rfl⟩))
      · next hr =>
        cases h
        exact .inr (.inr (.inr ⟨hs, Nat.le_of_not_lt hlt, Nat.lt_of_not_le hr, rfl⟩))
  · next hs =>
    cases h
    exact .inl ⟨by simpa using hs, rfl⟩

/-- RDREG answers a register, or faults on its number, or unseeded on IDX. -/
theorem exec_rdreg_cases {reg : BitVec 8} {s t : State} (h : exec (.rdreg reg) s = .next t) :
    (∃ r d, regName reg = some r ∧ t = respond .ok d s) ∨
    (regName reg = some .idx ∧ s.engine.seeded = false ∧ t = raise .notSeeded s) ∨
    (regName reg = none ∧ t = raise .illegalCmd s) := by
  change execRdreg reg s = .next t at h
  unfold execRdreg at h
  split at h
  case h_1 hr => cases h; exact .inl ⟨_, _, hr, rfl⟩
  case h_2 hr => cases h; exact .inl ⟨_, _, hr, rfl⟩
  case h_3 hr =>
    split at h
    · split at h
      · cases h
        exact .inl ⟨_, _, hr, rfl⟩
      · cases h
    · next hs =>
      cases h
      exact .inr (.inl ⟨hr, by simpa using hs, rfl⟩)
  case h_4 hr => cases h; exact .inl ⟨_, _, hr, rfl⟩
  case h_5 hr => cases h; exact .inl ⟨_, _, hr, rfl⟩
  case h_6 hr =>
    cases h
    exact .inr (.inr ⟨hr, rfl⟩)

/-- How the end of a command takes `s` to its argument (30_encoding.md R80, 60_exceptions.md R206): a response with status OK
on a state `u` that keeps the host, the error record and the response of `s`, or a fault that changes nothing else. -/
inductive CommandEnd (s : State) : State → Prop where
  | ok (d : Word) (u : State) (host : u.host = s.host) (resets : u.resets = s.resets) (err : u.err = s.err)
      (rsp : u.rsp = s.rsp) : CommandEnd s (respond .ok d u)
  | fault (st : Status) (hne : st ≠ .ok) : CommandEnd s (raise st s)

/-- A command ends, or it is a DRAW that begins and has no response yet (42_range_sampler.md R161). -/
theorem exec_cases {i : Instr} {s t : State} (h : exec i s = .next t) :
    CommandEnd s t ∨ ∃ low high, i = .draw low high ∧ t = drawStart (drawRange low high) low s := by
  cases i with
  | hclr | hbyte _ | seed _ | seedh =>
    cases h
    exact .inl (.ok _ _ rfl rfl rfl rfl)
  | next =>
    rcases exec_next_cases h with ⟨-, w, e, -, rfl⟩ | ⟨-, rfl⟩
    · exact .inl (.ok w (setEngine e s) rfl rfl rfl rfl)
    · exact .inl (.fault .notSeeded (by decide))
  | cfgw bits max =>
    rcases exec_cfgw_cases h with ⟨-, rfl⟩ | ⟨-, rfl⟩
    · exact .inl (.ok 0 (setCfg bits max s) rfl rfl rfl rfl)
    · exact .inl (.fault .configError (by decide))
  | draw low high =>
    rcases exec_draw_cases h with ⟨-, rfl⟩ | ⟨-, -, rfl⟩ | ⟨-, -, -, rfl⟩ | ⟨-, -, -, rfl⟩
    · exact .inl (.fault .notSeeded (by decide))
    · exact .inl (.fault .invalidRange (by decide))
    · exact .inl (.ok (low.setWidth 64) s rfl rfl rfl rfl)
    · exact .inr ⟨low, high, rfl, rfl⟩
  | rdreg reg =>
    rcases exec_rdreg_cases h with ⟨r, d, -, rfl⟩ | ⟨-, -, rfl⟩ | ⟨-, rfl⟩
    · exact .inl (.ok d s rfl rfl rfl rfl)
    · exact .inl (.fault .notSeeded (by decide))
    · exact .inl (.fault .illegalCmd (by decide))

/-! ### How the error record moves (10_state.md R32, R33) -/

/-- How a step with `rst` low takes the error record and the response register of `s` to those of `t`: no command ends in
it, or one ends with status OK, or one faults. -/
inductive RecordMove (s t : State) : Prop where
  | quiet (err : t.err = s.err) (valid : t.rsp.valid = true → s.rsp.valid = true)
  | answered (d : Word) (err : t.err = s.err) (rsp : t.rsp = { valid := true, status := some 0, data := some d })
  | faulted (c : BitVec 4) (hne : c ≠ 0) (err : t.err = { sticky := true, last := c })
      (rsp : t.rsp = { valid := true, status := some c, data := some 0 })

/-- Only the error record and the response of the state before a step matter. -/
theorem RecordMove.congr {s u t : State} (h : RecordMove u t) (herr : u.err = s.err) (hrsp : u.rsp = s.rsp) :
    RecordMove s t := by
  cases h with
  | quiet err valid => exact .quiet (err.trans herr) (hrsp ▸ valid)
  | answered d err rsp => exact .answered d (err.trans herr) rsp
  | faulted c hne err rsp => exact .faulted c hne err rsp

theorem recordMove_raise {st : Status} (hne : st ≠ .ok) (s u : State) : RecordMove s (raise st u) :=
  .faulted (statusCode st) (mt (statusCode_eq_zero_iff st).1 hne) (recordError_of_ne_ok hne u.err) rfl

theorem exec_recordMove {i : Instr} {s t : State} (h : exec i s = .next t) : RecordMove s t := by
  rcases exec_cases h with hend | ⟨low, high, -, rfl⟩
  · cases hend with
    | ok d u host resets err rsp => exact .answered d err rfl
    | fault st hne => exact recordMove_raise hne s s
  · exact .quiet rfl id

theorem microStep_recordMove {p : Config.Params} {s t : State} (h : microStep p s = .next t) : RecordMove s t := by
  rcases microStep_next_cases h with ⟨-, rfl⟩ | ⟨-, rfl⟩ | ⟨-, -, rfl⟩ | ⟨-, -, raw, e, -, rfl⟩ | ⟨-, rfl⟩
  · exact .quiet rfl id
  · rw [drawTest_eq]
    exact .quiet rfl id
  · exact recordMove_raise (by decide) _ _
  · rw [drawTake_eq]
    exact .quiet rfl id
  · rcases drawEval_cases s with ⟨-, heval⟩ | ⟨-, heval⟩ <;> rw [heval]
    · exact .answered _ rfl rfl
    · exact .quiet rfl id

theorem runPacket_recordMove {p : Packet} {s t : State} (h : runPacket p s = .next t) : RecordMove s t := by
  rcases runPacket_next_cases h with ⟨i, -, hexec⟩ | ⟨e, -, rfl⟩
  · exact exec_recordMove hexec
  · exact recordMove_raise (by decide) _ _

theorem blockMove_recordMove {s t : State} (hrst : s.host.pins.rst = false) (h : blockMove s = .next t) :
    RecordMove s t := by
  rcases blockMove_next_cases h with ⟨hr, -⟩ | ⟨-, -, -, rfl⟩ | ⟨-, -, hmicro⟩ | ⟨-, -, -, rfl⟩ | ⟨-, -, p, -, hrun⟩ |
    ⟨-, -, -, rfl⟩
  · simp [hrst] at hr
  · exact .quiet rfl (fun hv => absurd hv (by simp))
  · exact microStep_recordMove hmicro
  · exact .quiet rfl id
  · exact (runPacket_recordMove hrun).congr rfl rfl
  · exact .quiet rfl id

theorem step_recordMove {s t : State} (hrst : (hostMove s).host.pins.rst = false) (h : step s = .next t) :
    RecordMove s t :=
  (blockMove_recordMove hrst h).congr (hostMove_err s) (hostMove_rsp s)

/-- A command that ends with a non-zero status records it; one that ends with OK leaves the record. -/
theorem RecordMove.err_of_response {s t : State} {c : BitVec 4} (h : RecordMove s t) (hs : s.rsp.valid = false)
    (ht : t.rsp.valid = true) (hc : t.rsp.status = some c) :
    (c ≠ 0 → t.err = { sticky := true, last := c }) ∧ (c = 0 → t.err = s.err) := by
  cases h with
  | quiet err valid => simp [valid ht] at hs
  | answered d err rsp =>
    obtain rfl : 0 = c := by simpa [rsp] using hc
    exact ⟨fun hne => absurd rfl hne, fun _ => err⟩
  | faulted c' hne err rsp =>
    obtain rfl : c' = c := by simpa [rsp] using hc
    exact ⟨fun _ => err, fun h0 => absurd h0 hne⟩

/-- The record stays, or it takes the code of a fault. -/
theorem RecordMove.err_cases {s t : State} (h : RecordMove s t) :
    t.err = s.err ∨ ∃ c, c ≠ 0 ∧ t.rsp = { valid := true, status := some c, data := some 0 } ∧
      t.err = { sticky := true, last := c } := by
  cases h with
  | quiet err valid => exact .inl err
  | answered d err rsp => exact .inl err
  | faulted c hne err rsp => exact .inr ⟨c, hne, rsp, err⟩

theorem RecordMove.keeps_sticky {s t : State} (h : RecordMove s t) (hs : s.err.sticky = true) :
    t.err.sticky = true := by
  rcases h.err_cases with herr | ⟨c, -, -, herr⟩
  · rw [herr, hs]
  · rw [herr]

/-- Settles O15: with `rst` low every step is a `RecordMove`. -/
theorem errorRecordFollowsTheStatus : Obligations.ErrorRecordFollowsTheStatus :=
  ⟨fun _ _ _ hrst hstep hs ht hc => (step_recordMove hrst hstep).err_of_response hs ht hc,
    fun _ _ hrst hstep => ⟨(step_recordMove hrst hstep).keeps_sticky, (step_recordMove hrst hstep).err_cases⟩, rfl⟩

/-! ### How the engine moves (10_state.md R21, R24, R25) -/

/-- A command leaves the engine, seeds it, or takes one word from it. -/
theorem exec_engine_cases {i : Instr} {s t : State} (h : exec i s = .next t) :
    t.engine = s.engine ∨
    (((∃ x, i = .seed x) ∨ i = .seedh) ∧ ∃ x, t.engine = initEngine x) ∨
    (i = .next ∧ ∃ w, nextWord s.engine = .ok (w, t.engine)) := by
  cases i with
  | hclr | hbyte _ =>
    cases h
    exact .inl rfl
  | seed x =>
    cases h
    exact .inr (.inl ⟨.inl ⟨x, rfl⟩, x, rfl⟩)
  | seedh =>
    cases h
    exact .inr (.inl ⟨.inr rfl, s.hash.value, rfl⟩)
  | next =>
    rcases exec_next_cases h with ⟨-, w, e, hw, rfl⟩ | ⟨-, rfl⟩
    · exact .inr (.inr ⟨rfl, w, hw⟩)
    · exact .inl rfl
  | cfgw bits max => rcases exec_cfgw_cases h with ⟨-, rfl⟩ | ⟨-, rfl⟩ <;> exact .inl rfl
  | draw low high =>
    rcases exec_draw_cases h with ⟨-, rfl⟩ | ⟨-, -, rfl⟩ | ⟨-, -, -, rfl⟩ | ⟨-, -, -, rfl⟩ <;> exact .inl rfl
  | rdreg reg => rcases exec_rdreg_cases h with ⟨-, -, -, rfl⟩ | ⟨-, -, rfl⟩ | ⟨-, rfl⟩ <;> exact .inl rfl

/-- A micro-step leaves the engine, or is a FETCH that takes one word from it. -/
theorem microStep_engine_cases {p : Config.Params} {s t : State} (h : microStep p s = .next t) :
    t.engine = s.engine ∨ (s.draw.micro = .fetch ∧ ∃ w, nextWord s.engine = .ok (w, t.engine)) := by
  rcases microStep_next_cases h with ⟨-, rfl⟩ | ⟨-, rfl⟩ | ⟨-, -, rfl⟩ | ⟨hm, -, raw, e, hw, rfl⟩ | ⟨-, rfl⟩
  · exact .inl rfl
  · exact .inl (by rw [drawTest_eq])
  · exact .inl rfl
  · exact .inr ⟨hm, raw, by rw [drawTake_eq]; exact hw⟩
  · rcases drawEval_cases s with ⟨-, heval⟩ | ⟨-, heval⟩ <;> rw [heval] <;> exact .inl rfl

/-- Everything a step can do to the engine: reset it, leave it, take a word from it in a DRAW's FETCH, or run an accepted
SEED, SEEDH or NEXT on it. -/
theorem step_engine_cases {s t : State} (h : step s = .next t) :
    ((hostMove s).host.pins.rst = true ∧ t.engine = State.reset.engine) ∨
    t.engine = s.engine ∨
    (s.draw.busy = true ∧ s.draw.micro = .fetch ∧ ∃ w, nextWord s.engine = .ok (w, t.engine)) ∨
    (∃ p i, (hostMove s).host.pins.cmd = some p ∧ cmdReady s = true ∧ decode p = .ok i ∧
      ((((∃ x, i = .seed x) ∨ i = .seedh) ∧ ∃ x, t.engine = initEngine x) ∨
        (i = .next ∧ ∃ w, nextWord s.engine = .ok (w, t.engine)))) := by
  rcases blockMove_next_cases h with ⟨hr, rfl⟩ | ⟨-, -, -, rfl⟩ | ⟨-, hb, hmicro⟩ | ⟨-, -, -, rfl⟩ |
    ⟨-, hready, p, hp, hrun⟩ | ⟨-, -, -, rfl⟩
  · exact .inl ⟨hr, rfl⟩
  · exact .inr (.inl (by simp))
  · rw [hostMove_draw] at hb
    rcases microStep_engine_cases hmicro with he | ⟨hm, hw⟩
    · exact .inr (.inl (he.trans (hostMove_engine s)))
    · rw [hostMove_draw] at hm
      rw [hostMove_engine] at hw
      exact .inr (.inr (.inl ⟨hb, hm, hw⟩))
  · exact .inr (.inl (hostMove_engine s))
  · rcases runPacket_next_cases hrun with ⟨i, hd, hexec⟩ | ⟨e, -, rfl⟩
    · have hcases := exec_engine_cases hexec
      rw [accept_engine, hostMove_engine] at hcases
      rcases hcases with he | hcommand
      · exact .inr (.inl he)
      · exact .inr (.inr (.inr ⟨p, i, hp, by simpa [cmdReady] using hready, hd, hcommand⟩))
    · exact .inr (.inl (by simp))
  · exact .inr (.inl (hostMove_engine s))

theorem initEngine_idxInRange (x : Word) : IdxInRange (initEngine x) := fun _ => ⟨312, rfl, by decide⟩

/-- NextWord leaves IDX in 1..624: it reads an index below 624, refilled or not. -/
theorem nextWord_idxInRange {e e' : Engine} {w : Word} (h : nextWord e = .ok (w, e')) : IdxInRange e' := by
  obtain ⟨idx, idx', ws, x, -, hr, -, -, rfl⟩ := nextWord_ok_iff.1 h
  have hlt : idx'.toNat < 624 := by
    rcases refill_ok_cases hr with ⟨h312, rfl, -⟩ | ⟨-, rfl, -⟩ | ⟨-, h624, rfl, -⟩
    · omega
    · decide
    · exact h624
  exact fun _ => ⟨idx' + 1, rfl, by bv_omega⟩

theorem reset_idxInRange : IdxInRange State.reset.engine := fun h => by cases h

/-- Settles O36, through the four things a step can do to the engine. -/
theorem idxStaysInRange : Obligations.IdxStaysInRange := by
  refine ⟨fun s t hs hstep => ?_, reset_idxInRange⟩
  rcases step_engine_cases hstep with ⟨-, he⟩ | he | ⟨-, -, w, hw⟩ | ⟨p, i, -, -, -, ⟨-, x, he⟩ | ⟨-, w, hw⟩⟩
  · exact he ▸ reset_idxInRange
  · exact he ▸ hs
  · exact nextWord_idxInRange hw
  · exact he ▸ initEngine_idxInRange x
  · exact nextWord_idxInRange hw

/-- Settles O37: of the things a step can do to the engine only reset clears SEEDED. -/
theorem onlyEngineCommandsChangeTheEngine : Obligations.OnlyEngineCommandsChangeTheEngine := by
  intro s t hrst hstep
  rcases step_engine_cases hstep with ⟨hr, -⟩ | he | ⟨hb, hm, w, hw⟩ |
    ⟨p, i, hp, hready, hd, ⟨hi, x, he⟩ | ⟨hi, w, hw⟩⟩
  · simp [hrst] at hr
  · exact ⟨fun hne => absurd he hne, fun hs => he ▸ hs⟩
  · exact ⟨fun _ => .inl ⟨hb, hm⟩, fun hs => (nextWord_seeded hw).trans hs⟩
  · exact ⟨fun _ => .inr ⟨p, i, hp, hready, hd, hi.imp_right .inl⟩, fun _ => by rw [he]; rfl⟩
  · exact ⟨fun _ => .inr ⟨p, i, hp, hready, hd, .inr (.inr hi)⟩, fun hs => (nextWord_seeded hw).trans hs⟩

/-! ### What each command leaves (10_state.md R20, R39) -/

/-- A command leaves the host's port and the count of resets. -/
theorem exec_host_resets {i : Instr} {s t : State} (h : exec i s = .next t) : t.host = s.host ∧ t.resets = s.resets := by
  rcases exec_cases h with hend | ⟨low, high, -, rfl⟩
  · cases hend with
    | ok d u host resets err rsp => exact ⟨host, resets⟩
    | fault st hne => exact ⟨rfl, rfl⟩
  · exact ⟨rfl, rfl⟩

/-- A move after which the response holds status OK leaves the error record. -/
theorem RecordMove.err_of_status_zero {s t : State} (h : RecordMove s t) (h0 : t.rsp.status = some 0) :
    t.err = s.err := by
  rcases h.err_cases with herr | ⟨c, hne, hrsp, -⟩
  · exact herr
  · rw [hrsp] at h0
    exact absurd (Option.some.inj h0) hne

/-- Settles O51, command by command. -/
theorem commandFrames : Obligations.CommandFrames := by
  intro i s t h
  obtain ⟨hhost, hresets⟩ := exec_host_resets h
  refine ⟨hhost, hresets, (exec_recordMove h).err_of_status_zero, ?_⟩
  cases i with
  | hclr | hbyte _ | seed _ | seedh =>
    cases h
    exact ⟨rfl, rfl, rfl⟩
  | next =>
    rcases exec_next_cases h with ⟨-, w, e, hw, rfl⟩ | ⟨-, rfl⟩
    · exact ⟨rfl, rfl, rfl, nextWord_seeded hw⟩
    · exact ⟨rfl, rfl, rfl, rfl⟩
  | cfgw bits max => rcases exec_cfgw_cases h with ⟨-, rfl⟩ | ⟨-, rfl⟩ <;> exact ⟨rfl, rfl, rfl⟩
  | draw low high =>
    rcases exec_draw_cases h with ⟨-, rfl⟩ | ⟨-, -, rfl⟩ | ⟨-, -, -, rfl⟩ | ⟨-, -, -, rfl⟩ <;>
      exact ⟨rfl, rfl, rfl, rfl, rfl⟩
  | rdreg reg =>
    rcases exec_rdreg_cases h with ⟨-, -, -, rfl⟩ | ⟨-, -, rfl⟩ | ⟨-, rfl⟩ <;> exact ⟨rfl, rfl, rfl, rfl⟩

/-! ### The bits of STATUS (10_state.md R31) -/

/-- Bit `k` of STATUS, field by field. -/
theorem getLsbD_statusWord (s : State) : ∀ k, (statusWord s).getLsbD k =
    match k with
    | 0 => s.engine.seeded
    | 1 => s.hash.term
    | 2 => s.err.sticky
    | 3 => false
    | k + 4 => s.err.last.getLsbD k
  | 0 | 1 | 2 | 3 => by
    simp only [statusWord, BitVec.getLsbD_append]
    simp
  | k + 4 => by
    simp only [statusWord, BitVec.getLsbD_append]
    have hk : k + 4 - 1 - 1 - 1 - 1 = k := by omega
    rw [if_neg (by omega), if_neg (by omega), if_neg (by omega), if_neg (by omega), hk]
    split
    · rfl
    · next h4 => simp [BitVec.getLsbD_of_ge s.err.last k (Nat.le_of_not_lt h4)]

/-- Settles O14, from the field each bit of STATUS lies in. -/
theorem statusWordBits : Obligations.StatusWordBits := by
  intro s
  refine ⟨rfl, getLsbD_statusWord s 0, getLsbD_statusWord s 1, getLsbD_statusWord s 2, getLsbD_statusWord s 3, ?_, ?_⟩
  · intro k _
    rw [Nat.add_comm]
    exact getLsbD_statusWord s (k + 4)
  · intro k hk
    obtain ⟨j, rfl⟩ := Nat.exists_eq_add_of_le' hk
    exact (getLsbD_statusWord s (j + 4 + 4)).trans (BitVec.getLsbD_of_ge _ _ (by omega))

end Sys2Proof.Machine
end

section
/-! PROOFS. The statements of 30_encoding.md. First the packet's fields and what the decoder can answer, once; then the
opcode table's rows; then accepting a packet and taking a response; then the assembler, and the packet's spellings. -/

namespace Sys2Proof

/-! ### The packet and its fields (30_encoding.md R70, R72) -/

@[simp] theorem opOf_packet (op : BitVec 8) (a b : Word) : opOf (packet op a b) = op :=
  BitVec.extractLsb'_append_eq_right

@[simp] theorem aOf_packet (op : BitVec 8) (a b : Word) : aOf (packet op a b) = a :=
  (BitVec.extractLsb'_append_eq_of_le (Nat.le_refl 8)).trans BitVec.extractLsb'_append_eq_right

@[simp] theorem bOf_packet (op : BitVec 8) (a b : Word) : bOf (packet op a b) = b :=
  (BitVec.extractLsb'_append_eq_of_le (show 8 ≤ 72 by omega)).trans BitVec.extractLsb'_append_eq_left

/-- A packet is made of its three fields. -/
@[simp] theorem packet_fields (p : Packet) : packet (opOf p) (aOf p) (bOf p) = p := by
  have hba : bOf p ++ aOf p = p.extractLsb' 8 128 := BitVec.extractLsb'_append_extractLsb'_eq_extractLsb' rfl
  calc packet (opOf p) (aOf p) (bOf p) = (p.extractLsb' 8 128 ++ opOf p : BitVec (128 + 8)) := by rw [packet, hba]
    _ = p.extractLsb' 0 136 := BitVec.extractLsb'_append_extractLsb'_eq_extractLsb' rfl
    _ = p := BitVec.extractLsb'_eq_self

/-- The packet of given fields. -/
theorem packet_eq {p : Packet} {op : BitVec 8} {a b : Word} (hop : opOf p = op) (ha : a = aOf p) (hb : b = bOf p) :
    packet op a b = p := by
  rw [← hop, ha, hb, packet_fields]

theorem lowField_operand {n : Nat} (hn : n ≤ 64) (x : BitVec n) : lowField n (operand x) = x := by
  apply BitVec.eq_of_toNat_eq
  have hx : x.toNat % 2 ^ 64 = x.toNat :=
    Nat.mod_eq_of_lt (Nat.lt_of_lt_of_le x.isLt (Nat.pow_le_pow_right (by omega) hn))
  simp only [lowField, operand, BitVec.extractLsb'_toNat, BitVec.toNat_setWidth, Nat.shiftRight_zero, hx]
  exact Nat.mod_eq_of_lt x.isLt

theorem highBitsZero_iff (n : Nat) (x : Word) : highBitsZero n x = true ↔ x.toNat < 2 ^ n := by
  simp [highBitsZero, ← BitVec.toNat_inj, Nat.shiftRight_eq_div_pow]

@[simp] theorem highBitsZero_operand {n : Nat} (x : BitVec n) : highBitsZero n (operand x) = true :=
  (highBitsZero_iff n _).2 (Nat.lt_of_le_of_lt (by simp [operand, Nat.mod_le]) x.isLt)

/-- An operand whose reserved bits are 0 is its field, zero-extended. -/
theorem operand_lowField {n : Nat} {x : Word} (h : highBitsZero n x = true) : operand (lowField n x) = x := by
  have hx := (highBitsZero_iff n x).1 h
  apply BitVec.eq_of_toNat_eq
  simp only [lowField, operand, BitVec.extractLsb'_toNat, BitVec.toNat_setWidth, Nat.shiftRight_zero,
    Nat.mod_eq_of_lt hx]
  exact Nat.mod_eq_of_lt x.isLt

/-! ### What the decoder answers (30_encoding.md R74 to R76) -/

@[simp] theorem ifReservedZero_true (op : BitVec 8) (i : Instr) : ifReservedZero true op i = .ok i := rfl

/-- Settles O1, command by command: each format's field is read back, and its reserved bits are 0. -/
theorem everyCommandDecodesFromItsPacket : Obligations.EveryCommandDecodesFromItsPacket := by
  intro i
  cases i with
  | hclr | seedh | next => rfl
  | seed _ => simp [decode, encode]
  | hbyte _ | cfgw _ _ | draw _ _ | rdreg _ => simp [decode, encode, lowField_operand]

/-- What the decoder can answer on `p`: the command whose encoding `p` is, a set reserved bit under the OP of a row of the
opcode table, or an OP of no row. -/
inductive DecodesTo (p : Packet) : Except Illegal Instr → Prop where
  | legal {i : Instr} (henc : encode i = p) : DecodesTo p (.ok i)
  | reserved {r : OpcodeRow} (hr : r ∈ opcodeTable) (hop : opOf p = opOf r.bits) :
      DecodesTo p (.error (.reservedBits (opOf p)))
  | unassigned (hop : ∀ r ∈ opcodeTable, opOf p ≠ opOf r.bits) : DecodesTo p (.error (.unassignedOp (opOf p)))

/-- The decoder's branch of one row: what a legal command owes is that it encodes to `p`. -/
theorem ifReservedZero_decodesTo {p : Packet} {r : OpcodeRow} {clear : Bool} {i : Instr} (hr : r ∈ opcodeTable)
    (hop : opOf p = opOf r.bits) (henc : clear = true → encode i = p) :
    DecodesTo p (ifReservedZero clear (opOf p) i) := by
  cases clear with
  | true => exact .legal (henc rfl)
  | false => exact .reserved hr hop

/-- A legal packet of format N (R72). -/
theorem packet_of_noField {p : Packet} {op : BitVec 8} (hop : opOf p = op) (h : (aOf p == 0 && bOf p == 0) = true) :
    packet op 0 0 = p := by
  obtain ⟨ha, hb⟩ : aOf p = 0 ∧ bOf p = 0 := by simpa using h
  exact packet_eq hop ha.symm hb.symm

/-- A legal packet of format B8 or REG (R72): its one field is in A. -/
theorem packet_of_fieldA {n : Nat} {p : Packet} {op : BitVec 8} (hop : opOf p = op)
    (h : (highBitsZero n (aOf p) && bOf p == 0) = true) : packet op (operand (lowField n (aOf p))) 0 = p := by
  obtain ⟨ha, hb⟩ : highBitsZero n (aOf p) = true ∧ bOf p = 0 := by simpa using h
  exact packet_eq hop (operand_lowField ha) hb.symm

theorem opcodeTable_ops :
    opcodeTable.map (fun r => opOf r.bits) = [0x01, 0x02, 0x10, 0x11, 0x20, 0x30, 0x40, 0x50] := by decide

/-- Row by row, a legal packet is put together again from its OP and the fields its command took from it. -/
theorem decode_decodesTo (p : Packet) : DecodesTo p (decode p) := by
  unfold decode
  extract_lets op a b
  split_ifs with hclr hbyte seed seedh next cfgw draw rdreg
  · exact ifReservedZero_decodesTo (r := opcodeTable[0]) (by simp) hclr (packet_of_noField hclr)
  · exact ifReservedZero_decodesTo (r := opcodeTable[1]) (by simp) hbyte (packet_of_fieldA hbyte)
  · exact ifReservedZero_decodesTo (r := opcodeTable[2]) (by simp) seed
      fun hb => packet_eq seed rfl (beq_iff_eq.1 hb).symm
  · exact ifReservedZero_decodesTo (r := opcodeTable[3]) (by simp) seedh (packet_of_noField seedh)
  · exact ifReservedZero_decodesTo (r := opcodeTable[4]) (by simp) next (packet_of_noField next)
  · exact ifReservedZero_decodesTo (r := opcodeTable[5]) (by simp) cfgw
      fun ha => packet_eq cfgw (operand_lowField ha) rfl
  · refine ifReservedZero_decodesTo (r := opcodeTable[6]) (by simp) draw fun hab => ?_
    obtain ⟨ha, hb⟩ := (Bool.and_eq_true _ _).mp hab
    exact packet_eq draw (operand_lowField ha) (operand_lowField hb)
  · exact ifReservedZero_decodesTo (r := opcodeTable[7]) (by simp) rdreg (packet_of_fieldA rdreg)
  · refine .unassigned fun r hr hop => ?_
    have hmem : opOf p ∈ opcodeTable.map (fun r => opOf r.bits) := hop ▸ List.mem_map_of_mem hr
    rw [opcodeTable_ops] at hmem
    simp_all [op]

/-- Settles O2: the decoder answers a command only on its encoding. -/
theorem legalPacketIsTheEncodingOfItsCommand : Obligations.LegalPacketIsTheEncodingOfItsCommand := by
  intro p i hd
  have h := decode_decodesTo p
  rw [hd] at h
  cases h with
  | legal henc => exact henc

theorem decode_of_encode_eq {p : Packet} {i : Instr} (h : encode i = p) : decode p = .ok i :=
  h ▸ everyCommandDecodesFromItsPacket i

/-- Settles O5: the legal packets are encodings, and the decoder names the others. -/
theorem packetsWrittenOutDecode : Obligations.PacketsWrittenOutDecode := by
  refine ⟨?_, ?_, ?_, ?_, ?_, ?_, ?_, ?_, by decide, by decide, by decide⟩ <;>
    exact decode_of_encode_eq (by decide)

/-! ### The rows of the opcode table (30_encoding.md R73, R74) -/

theorem encode_tableRow (i : Instr) : Laws.TableRow.Statement i := by
  cases i with
  | hclr => exact Laws.TableRow.hclr
  | hbyte imm8 => exact Laws.TableRow.hbyte imm8
  | seed seed => exact Laws.TableRow.seed seed
  | seedh => exact Laws.TableRow.seedh
  | next => exact Laws.TableRow.next
  | cfgw bits max => exact Laws.TableRow.cfgw bits max
  | draw low high => exact Laws.TableRow.draw low high
  | rdreg reg => exact Laws.TableRow.rdreg reg

/-- The packet of a command is covered by the command's row. -/
theorem tableRow_of_encode_eq {p : Packet} {i : Instr} (henc : encode i = p) :
    ∃ r ∈ opcodeTable, r.mnemonic = i.mnemonic ∧ r.covers p = true :=
  henc ▸ encode_tableRow i

/-- Every row fixes OP. -/
theorem opcodeTable_mask_op : ∀ r ∈ opcodeTable, opOf r.mask = BitVec.allOnes 8 := by decide

theorem opOf_and (p m : Packet) : opOf (p &&& m) = opOf p &&& opOf m := by
  simp [opOf, BitVec.extractLsb'_and]

/-- A row covers packets of its own OP only. -/
theorem opOf_of_covers {p : Packet} {r : OpcodeRow} (hr : r ∈ opcodeTable) (hc : r.covers p = true) :
    opOf p = opOf r.bits := by
  have hbits : p &&& r.mask = r.bits := by simpa [OpcodeRow.covers] using hc
  rw [← hbits, opOf_and, opcodeTable_mask_op r hr, BitVec.and_allOnes]

/-- No two rows have one OP. -/
theorem opcodeTable_op_injective : ∀ r ∈ opcodeTable, ∀ r' ∈ opcodeTable, opOf r.bits = opOf r'.bits → r = r' := by
  decide

/-- Settles O3: rows that cover one packet share its OP, so they are one row. -/
theorem legalPacketsAreThoseOfOneTableRow : Obligations.LegalPacketsAreThoseOfOneTableRow := by
  constructor
  · intro p i hd
    obtain ⟨r, hr, hmnemonic, hc⟩ := tableRow_of_encode_eq (legalPacketIsTheEncodingOfItsCommand p i hd)
    exact ⟨r, hr, hmnemonic, hc, fun r' hr' hc' =>
      opcodeTable_op_injective r' hr' r hr ((opOf_of_covers hr' hc').symm.trans (opOf_of_covers hr hc))⟩
  · intro p huncovered
    cases hd : decode p with
    | error e => exact ⟨e, rfl⟩
    | ok i =>
      obtain ⟨r, hr, -, hc⟩ := tableRow_of_encode_eq (legalPacketIsTheEncodingOfItsCommand p i hd)
      simp [huncovered r hr] at hc

/-- Settles O4, through the three answers of the decoder: an encoding is covered by the row of its OP. -/
theorem rejectedPacketsAreNamed : Obligations.RejectedPacketsAreNamed := by
  constructor
  · intro r hr p hop huncovered
    have h := decode_decodesTo p
    generalize decode p = answer at h
    cases h with
    | legal henc =>
      obtain ⟨r', hr', -, hc⟩ := tableRow_of_encode_eq henc
      obtain rfl := opcodeTable_op_injective r hr r' hr' (hop.symm.trans (opOf_of_covers hr' hc))
      simp [huncovered] at hc
    | reserved _ _ => rfl
    | unassigned hnone => exact absurd hop (hnone r hr)
  · intro p hnone
    have h := decode_decodesTo p
    generalize decode p = answer at h
    cases h with
    | legal henc =>
      obtain ⟨r, hr, -, hc⟩ := tableRow_of_encode_eq henc
      exact absurd (opOf_of_covers hr hc) (hnone r hr)
    | reserved hr hop => exact absurd hop (hnone _ hr)
    | unassigned _ => rfl

end Sys2Proof

namespace Sys2Proof.Machine

/-! ### The ports: a packet accepted, a response taken (30_encoding.md R71, R80) -/

/-- An idle block whose `rst` is low accepts the packet offered and runs it. -/
theorem blockMove_of_offer {s : State} {p : Packet} (hrst : s.host.pins.rst = false) (hready : cmdReady s = true)
    (hcmd : s.host.pins.cmd = some p) : blockMove s = runPacket p (accept s) := by
  obtain ⟨hbusy, hvalid⟩ := (cmdReady_iff s).1 hready
  simp [blockMove, hrst, hbusy, hvalid, hcmd]

theorem runPacket_of_decode_ok {p : Packet} {i : Instr} (hd : decode p = .ok i) (s : State) :
    runPacket p s = exec i s := by
  simp [runPacket, hd]

theorem step_of_offer {s : State} {p : Packet} {i : Instr} (hrst : (hostMove s).host.pins.rst = false)
    (hready : cmdReady (hostMove s) = true) (hcmd : (hostMove s).host.pins.cmd = some p) (hd : decode p = .ok i) :
    step s = exec i (accept (hostMove s)) :=
  (blockMove_of_offer hrst hready hcmd).trans (runPacket_of_decode_ok hd _)

/-- Settles O6: an idle block with an offer does nothing else, and the two moves are record updates of the host's port. -/
theorem stepRunsTheDecodedCommand : Obligations.StepRunsTheDecodedCommand :=
  ⟨fun _ _ _ => step_of_offer, hostMove_eq, fun _ => rfl⟩

theorem decodeTableWord_eq_some {nbits w : Nat} {i : Instr} (h : decodeTableWord nbits w = some i) :
    decode (tablePacket nbits w) = .ok i := by
  unfold decodeTableWord at h
  split at h
  · cases hd : decode (tablePacket nbits w) with
    | ok j => simpa [hd, Except.toOption] using h
    | error e => simp [hd, Except.toOption] at h
  · cases h

/-- Settles O7: `withFetchWord` leaves no host move to come, so the placed packet is the one offered. -/
theorem placedWordRunsNext : Obligations.PlacedWordRunsNext :=
  fun _ _ _ _ h => step_of_offer rfl rfl rfl (decodeTableWord_eq_some h)

/-- Settles O11: taking a response comes before every move but reset. -/
theorem takingAResponseClearsRspValid : Obligations.TakingAResponseClearsRspValid := by
  refine ⟨cmdReady_iff, ?_⟩
  rintro s h rfl hrst hvalid htaken
  change blockMove (hostMove s) = .next (setRspValid false (hostMove s))
  rw [blockMove, if_neg (by simp [hrst]), if_pos (by simp only [hvalid, htaken, Bool.and_self])]

/-- Settles O13, from what `recordError` does with either kind of code. -/
theorem respondWritesResponseAndErrorRecord : Obligations.RespondWritesResponseAndErrorRecord :=
  ⟨fun _ _ s => ⟨rfl, fun hne => recordError_of_ne_zero hne s.err, fun h0 => if_pos h0, rfl⟩,
    rfl, rfl, rfl, rfl, rfl, rfl⟩

/-! ### Lines of assembly (30_encoding.md R83, R84) -/

theorem assembleLine_eq_some_iff {l : AsmLine} {cmds : List Instr} :
    assembleLine l = some cmds ↔ asmInRange l = true ∧ asmCommands l = cmds := by
  simp [assembleLine]

/-- Settles O56: a line assembles exactly when its operands are in range, and then every field holds its operand. -/
theorem assemblerNeverTruncates : Obligations.AssemblerNeverTruncates := by
  refine ⟨?_, ?_, ?_, ?_, ?_, ?_, rfl, rfl, rfl, fun _ => rfl, fun _ => rfl, rfl, rfl, rfl, rfl, rfl, rfl⟩
  · intro l cmds h
    obtain ⟨hrange, rfl⟩ := assembleLine_eq_some_iff.1 h
    cases l with
    | hbyte n | seed n | rdreg n => exact ⟨_, rfl, Nat.mod_eq_of_lt (of_decide_eq_true hrange)⟩
    | cfgw m n | draw m n =>
      simp only [asmInRange, Bool.and_eq_true, decide_eq_true_eq] at hrange
      obtain ⟨hm, hn⟩ := hrange
      exact ⟨_, _, rfl, Nat.mod_eq_of_lt hm, Nat.mod_eq_of_lt hn⟩
    | _ => trivial
  · exact fun b => assembleLine_eq_some_iff.2 ⟨decide_eq_true b.isLt, by simp [asmCommands]⟩
  · exact fun x => assembleLine_eq_some_iff.2 ⟨decide_eq_true x.isLt, by simp [asmCommands]⟩
  · exact fun bits max => assembleLine_eq_some_iff.2
      ⟨by simp only [asmInRange, bits.isLt, max.isLt, decide_true, Bool.and_self], by simp [asmCommands]⟩
  · exact fun low high => assembleLine_eq_some_iff.2
      ⟨by simp only [asmInRange, low.isLt, high.isLt, decide_true, Bool.and_self], by simp [asmCommands]⟩
  · exact fun reg => assembleLine_eq_some_iff.2 ⟨decide_eq_true reg.isLt, by simp [asmCommands]⟩

/-! ### The hash of a string (30_encoding.md R84, 40_seed_hash.md R103) -/

theorem execSeq_append {is : List Instr} {s t : State} (h : execSeq is s = .next t) (js : List Instr) :
    execSeq (is ++ js) s = execSeq js t := by
  induction is generalizing s with
  | nil =>
    cases h
    rfl
  | cons i is ih =>
    simp only [execSeq, List.cons_append] at h ⊢
    split at h
    · exact ih h
    · cases h
    · cases h

/-- One HBYTE per byte feeds the SeedHash unit the bytes in order, and changes nothing else but the response. -/
theorem execSeq_hbytes (bytes : List (BitVec 8)) : ∀ s : State,
    ∃ t, execSeq (bytes.map .hbyte) s = .next t ∧
      t.hash = bytes.foldl (fun h b => hashByte thisHardware b h) s.hash ∧
      t.engine = s.engine ∧ t.cfg = s.cfg ∧ t.err = s.err ∧ t.draw = s.draw := by
  induction bytes with
  | nil => exact fun s => ⟨s, rfl, rfl, rfl, rfl, rfl, rfl⟩
  | cons b bs ih => exact fun s => ih (hbyteWith thisHardware b s)

theorem hashByte_of_ne_zero (p : Config.Params) {b : BitVec 8} {h : HashUnit} (ht : h.term = false) (hb : b ≠ 0) :
    hashByte p b h = { value := hashStep p h.value b, term := false } := by
  rw [hashByte, if_neg (by simp [ht]), if_neg hb]

/-- After the terminator nothing is hashed. -/
theorem foldl_hashByte_of_term (p : Config.Params) (bytes : List (BitVec 8)) {h : HashUnit} (ht : h.term = true) :
    bytes.foldl (fun h b => hashByte p b h) h = h := by
  induction bytes with
  | nil => rfl
  | cons b bs ih => rw [List.foldl_cons, hashByte, if_pos ht, ih]

/-- The SeedHash unit hashes the bytes before the first NUL, and HASH_TERM says whether there is one. -/
theorem foldl_hashByte (p : Config.Params) (bytes : List (BitVec 8)) : ∀ v : Word,
    bytes.foldl (fun h b => hashByte p b h) { value := v, term := false } =
      { value := (bytes.takeWhile (fun b => b != 0)).foldl (hashStep p) v, term := bytes.any (fun b => b == 0) } := by
  induction bytes with
  | nil => exact fun _ => rfl
  | cons b bs ih =>
    intro v
    by_cases hb : b = 0
    · subst hb
      exact foldl_hashByte_of_term p bs rfl
    · have hkeep : (b != 0) = true := bne_iff_ne.2 hb
      have hnul : (b == 0) = false := beq_eq_false_iff_ne.2 hb
      rw [List.foldl_cons, hashByte_of_ne_zero p rfl hb, ih, List.any_cons, hnul, Bool.false_or,
        List.takeWhile_cons_of_pos (p := fun b => b != 0) hkeep, List.foldl_cons]

/-- `HSTR`: HCLR and one HBYTE per byte leave HASH at `Hash` of the bytes before the first NUL. -/
theorem execSeq_hashString (bytes : List (BitVec 8)) (s : State) :
    ∃ t, execSeq (hashString bytes) s = .next t ∧
      t.hash = { value := hashOf thisHardware (bytes.takeWhile (fun b => b != 0))
                 term := bytes.any (fun b => b == 0) } ∧
      t.engine = s.engine ∧ t.cfg = s.cfg ∧ t.err = s.err ∧ t.draw = s.draw := by
  obtain ⟨t, hexec, hhash, hframe⟩ := execSeq_hbytes bytes (respond .ok 0 (setHash 0 false s))
  exact ⟨t, hexec, hhash.trans (foldl_hashByte thisHardware bytes 0), hframe⟩

/-- Settles O57: SEEDH seeds with the HASH that HSTR leaves. -/
theorem seedstrSeedsWithTheHash : Obligations.SeedstrSeedsWithTheHash := by
  intro bytes s
  obtain ⟨t, hexec, hhash, -⟩ := execSeq_hashString bytes s
  refine ⟨hashString bytes ++ [.seedh], respond .ok t.hash.value (setEngine (initEngine t.hash.value) t), rfl, ?_, ?_⟩
  · rw [execSeq_append hexec]
    rfl
  · rw [respond_engine, setEngine_engine, hhash]

/-! ### The packet's spellings (30_encoding.md R83) -/

theorem hexVal_hexChar : ∀ d < 16, hexVal (hexChar d) = some d := by decide

theorem length_hexDigits : ∀ n x : Nat, (hexDigits n x).length = n
  | 0, _ => rfl
  | n + 1, x => by rw [hexDigits, List.length_cons, length_hexDigits n x]

/-- The digits of a number are read back, after those that gave `acc`. -/
theorem digitsValue_hexDigits (x : Nat) : ∀ n acc : Nat,
    digitsValue 16 acc (hexDigits n x) = some (acc * 16 ^ n + x % 16 ^ n)
  | 0, acc => by simp [hexDigits, digitsValue, Nat.mod_one]
  | n + 1, acc => by
    have hd : x / 16 ^ n % 16 < 16 := Nat.mod_lt _ (by omega)
    have hx : x % 16 ^ (n + 1) = x % 16 ^ n + 16 ^ n * (x / 16 ^ n % 16) := Nat.mod_pow_succ
    simp only [hexDigits, digitsValue, hexVal_hexChar _ hd, if_pos hd, digitsValue_hexDigits x n, hx]
    congr 1
    ring

/-- Enough hexadecimal digits for every word of its width spell a word whole. -/
theorem digitsValue_hexDigits_toNat {w n : Nat} (hw : 2 ^ w ≤ 16 ^ n) (x : BitVec w) :
    digitsValue 16 0 (hexDigits n x.toNat) = some x.toNat := by
  rw [digitsValue_hexDigits, Nat.mod_eq_of_lt (Nat.lt_of_lt_of_le x.isLt hw), Nat.zero_mul, Nat.zero_add]

theorem readPacketHex_packetHex (p : Packet) : readPacketHex (packetHex p) = some p := by
  rw [readPacketHex, packetHex, if_pos (length_hexDigits 34 _), digitsValue_hexDigits_toNat (by decide), Option.map_some,
    BitVec.ofNat_toNat, BitVec.setWidth_eq]

/-- Three runs of 2, 16 and 16 digits between slashes are the packet of their numbers. -/
theorem readPacketFields_of_digits {xs ys zs : List Char} {op a b : Nat} (hxs : xs.length = 2) (hys : ys.length = 16)
    (hzs : zs.length = 16) (hop : digitsValue 16 0 xs = some op) (ha : digitsValue 16 0 ys = some a)
    (hb : digitsValue 16 0 zs = some b) :
    readPacketFields (xs ++ '/' :: ys ++ '/' :: zs) =
      some (packet (BitVec.ofNat 8 op) (BitVec.ofNat 64 a) (BitVec.ofNat 64 b)) := by
  have hshape : (xs ++ '/' :: ys ++ '/' :: zs).length = 36 ∧ (xs ++ '/' :: ys ++ '/' :: zs)[2]? = some '/' ∧
      (xs ++ '/' :: ys ++ '/' :: zs)[19]? = some '/' := by simp [hxs, hys, hzs]
  have hfirst : (xs ++ '/' :: ys ++ '/' :: zs).take 2 = xs := by simp [hxs]
  have hsecond : ((xs ++ '/' :: ys ++ '/' :: zs).drop 3).take 16 = ys := by
    simp [List.drop_append, List.drop_eq_nil_of_le, hxs, hys]
  have hthird : (xs ++ '/' :: ys ++ '/' :: zs).drop 20 = zs := by
    simp [List.drop_append, List.drop_eq_nil_of_le, hxs, hys]
  rw [readPacketFields, if_pos hshape, hfirst, hsecond, hthird, hop, ha, hb]

theorem readPacketFields_packetFields (p : Packet) : readPacketFields (packetFields p) = some p := by
  rw [packetFields, readPacketFields_of_digits (length_hexDigits 2 _) (length_hexDigits 16 _) (length_hexDigits 16 _)
    (digitsValue_hexDigits_toNat (by decide) _) (digitsValue_hexDigits_toNat (by decide) _)
    (digitsValue_hexDigits_toNat (by decide) _)]
  simp only [BitVec.ofNat_toNat, BitVec.setWidth_eq, packet_fields]

/-- Settles O58: 34 digits hold the 136 bits, and 2, 16 and 16 digits the three fields. -/
theorem packetSpellingsReadBack : Obligations.PacketSpellingsReadBack :=
  fun p => ⟨readPacketHex_packetHex p, readPacketFields_packetFields p⟩

end Sys2Proof.Machine
end

section
/-! PROOFS. The statements of 40_seed_hash.md. First the two commands' answers; then what a byte is extended to, and the hash
step as a multiply-add; the stream of bytes is the hash of a string, above. -/

namespace Sys2Proof.Machine

/-! ### HCLR and HBYTE (40_seed_hash.md R101, R102) -/

/-- A response OK leaves the error record (10_state.md R32, R33). -/
theorem respond_ok (d : Word) (s : State) : respond .ok d s = answered d s := rfl

/-- Settles O20: HCLR is one response OK over the cleared unit. -/
theorem hclrStartsANewHash : Obligations.HclrStartsANewHash :=
  fun s => congrArg Host.Outcome.next (respond_ok 0 (setHash 0 false s))

/-- HBYTE answers the HASH that its byte leaves, and changes only the SeedHash unit. -/
theorem exec_hbyte (b : BitVec 8) (s : State) :
    exec (.hbyte b) s = .next (answered (hashByte thisHardware b s.hash).value
      { s with hash := hashByte thisHardware b s.hash }) := rfl

theorem hashByte_of_term (p : Config.Params) (b : BitVec 8) {h : HashUnit} (ht : h.term = true) : hashByte p b h = h :=
  if_pos ht

theorem hashByte_zero (p : Config.Params) {h : HashUnit} (ht : h.term = false) :
    hashByte p 0 h = { value := h.value, term := true } := by
  rw [hashByte, if_neg (by simp [ht]), if_pos rfl]

/-- Settles O21, from what the byte makes of the unit in each of R102's three cases. -/
theorem hbyteFeedsOneByte : Obligations.HbyteFeedsOneByte := by
  intro s b
  refine ⟨fun ht => ?_, fun ht hb => ?_, fun ht hb => ⟨hashStep thisHardware s.hash.value b, rfl, ?_⟩⟩
  · rw [exec_hbyte, hashByte_of_term _ _ ht]
  · rw [exec_hbyte, hb, hashByte_zero _ ht]
  · rw [exec_hbyte, hashByte_of_ne_zero _ ht hb]

/-! ### The extension of a byte (40_seed_hash.md R105) -/

/-- A negative byte's sign extension is 56 ones over the byte. -/
theorem signExtend_eq_or_of_msb {b : BitVec 8} (hb : b.msb = true) :
    b.signExtend 64 = 0xFFFFFFFFFFFFFF00 ||| b.setWidth 64 := by
  rw [BitVec.signExtend_eq_append_of_le (by decide), if_pos hb, BitVec.append_def]
  rfl

/-- A negative byte's sign extension is the byte less 2^8, modulo 2^64. -/
theorem signExtend_eq_sub_of_msb {b : BitVec 8} (hb : b.msb = true) : b.signExtend 64 = b.setWidth 64 - 256 := by
  have hnat := BitVec.toNat_signExtend b (v := 64)
  rw [if_pos hb] at hnat
  bv_omega

theorem extByte_of_signed {p : Config.Params} (hp : p.hashSignedBytes = true) (b : BitVec 8) :
    extByte p b = b.signExtend 64 := if_pos hp

/-- Below 0x80 the two extensions are one. -/
theorem extByte_of_msb_false (p : Config.Params) {b : BitVec 8} (hb : b.msb = false) : extByte p b = b.setWidth 64 := by
  rw [extByte, BitVec.signExtend_eq_setWidth_of_msb_false hb, ite_self]

/-- Settles O23: 0x80 is where a byte's top bit begins to be set. -/
theorem hashByteExtension : Obligations.HashByteExtension := by
  constructor
  · intro p b hp hge
    have hb : b.msb = true := BitVec.msb_eq_true_iff_two_mul_ge.2 (by omega)
    rw [extByte_of_signed hp]
    exact ⟨signExtend_eq_or_of_msb hb, signExtend_eq_sub_of_msb hb⟩
  · intro p b _ hlt
    exact extByte_of_msb_false p (BitVec.msb_eq_false_iff_two_mul_lt.2 (by omega))

/-! ### The hash step and the stream of bytes (40_seed_hash.md R103, R104) -/

/-- Settles O22: the two shifts multiply by 2^6 and 2^16, and 2^6 + 2^16 - 1 = 65599. -/
theorem hashStepIsTheSdbmMultiplyAdd : Obligations.HashStepIsTheSdbmMultiplyAdd := by
  intro p h b
  have h6 : h <<< 6 = h * 64 := BitVec.shiftLeft_eq_mul_twoPow h 6
  have h16 : h <<< 16 = h * 65536 := BitVec.shiftLeft_eq_mul_twoPow h 16
  rw [hashStep, h6, h16]
  ring

/-- Settles O24: the stream is that of `HSTR`. -/
theorem hashStreamIsTheFoldOfItsBytes : Obligations.HashStreamIsTheFoldOfItsBytes :=
  ⟨fun s bytes => execSeq_hashString bytes s, rfl⟩

end Sys2Proof.Machine
end

section
/-! PROOFS. The statements of 41_twister.md about the engine. First reads of the state array and a refill's loop, once for
both refills; then the two refills; then seeding, and the calls of NextWord from a seeding. -/

namespace Sys2Proof

open Machine

/-! ### Reads of the state array (41_twister.md R125, R140) -/

theorem Written.mono {m n : Nat} {ws : Words} (h : Written n ws) (hm : m ≤ n) : Written m ws :=
  fun i hi => h i (Nat.lt_of_lt_of_le hi hm)

theorem Written.congr {n : Nat} {ws ws' : Words} (h : Written n ws) (hsame : ∀ j, j < n → ws'[j]? = ws[j]?) :
    Written n ws' :=
  fun j hj => hsame j hj ▸ h j hj

theorem safeRead_ok_iff {ws : Words} {j : Nat} {w : Word} (hj : j < 624) :
    safeRead ws j = .ok w ↔ ws[j]? = some (some w) := by
  rw [safeRead_of_lt hj, readWord_ok_iff]

theorem safeRead_congr {ws ws' : Words} {j : Nat} (h : ws'[j]? = ws[j]?) : safeRead ws' j = safeRead ws j := by
  unfold safeRead readWord
  rw [h]

theorem Written.safeRead_ok {n j : Nat} {ws : Words} (h : Written n ws) (hn : n ≤ 624) (hj : j < n) :
    ∃ w, safeRead ws j = .ok w :=
  (h j hj).imp fun _ => (safeRead_ok_iff (Nat.lt_of_lt_of_le hj hn)).2

/-- On a written array SafeRead completes at every index. -/
theorem Written.safeRead_completes {ws : Words} (h : Written 624 ws) (j : Nat) : ∃ w, safeRead ws j = .ok w := by
  by_cases hj : j < 624
  · exact h.safeRead_ok le_rfl hj
  · exact ⟨_, safeRead_of_ge (Nat.le_of_not_lt hj)⟩

/-! ### A refill's loop (41_twister.md R127, R128) -/

/-- One statement of a refill by its indices: the element it writes and the three it reads. -/
structure MixIndices where
  target : Nat
  m : Nat
  u : Nat
  v : Nat

/-- The indices read, in the order of the statement. -/
def MixIndices.reads (x : MixIndices) : List Nat := [x.m, x.u, x.v]

theorem MixIndices.forall_reads {x : MixIndices} {P : Nat → Prop} :
    (∀ j ∈ x.reads, P j) ↔ P x.m ∧ P x.u ∧ P x.v := by
  simp [MixIndices.reads]

/-- The statement `WORDS[target] <- SafeRead(m) ^ Twist(SafeRead(u), SafeRead(v))`, of which every statement of a refill
is a case. -/
def mixAt (x : MixIndices) (ws : Words) : Except Fault Words :=
  storeMix ws x.target (safeRead ws x.m) (safeRead ws x.u) (safeRead ws x.v)

/-- The statement read as an equation that one array satisfies. -/
def Mixed (x : MixIndices) (ws : Words) : Prop :=
  ∃ a b c, safeRead ws x.m = .ok a ∧ safeRead ws x.u = .ok b ∧ safeRead ws x.v = .ok c ∧
    ws[x.target]? = some (some (a ^^^ twist b c))

theorem Mixed.congr {x : MixIndices} {ws ws' : Words} (h : Mixed x ws) (htarget : ws'[x.target]? = ws[x.target]?)
    (hreads : ∀ j ∈ x.reads, ws'[j]? = ws[j]?) : Mixed x ws' := by
  obtain ⟨a, b, c, ha, hb, hc, hk⟩ := h
  obtain ⟨hm, hu, hv⟩ := MixIndices.forall_reads.1 hreads
  exact ⟨a, b, c, (safeRead_congr hm).trans ha, (safeRead_congr hu).trans hb, (safeRead_congr hv).trans hc,
    htarget.trans hk⟩

theorem Mixed.target_written {x : MixIndices} {ws : Words} (h : Mixed x ws) : ∃ w, ws[x.target]? = some (some w) := by
  obtain ⟨a, b, c, -, -, -, hk⟩ := h
  exact ⟨_, hk⟩

/-- On indices of the array, the equation with its elements written out. -/
theorem Mixed.elements {x : MixIndices} {ws : Words} (h : Mixed x ws) (hreads : ∀ j ∈ x.reads, j < 624) :
    ∃ a b c, ws[x.m]? = some (some a) ∧ ws[x.u]? = some (some b) ∧ ws[x.v]? = some (some c) ∧
      ws[x.target]? = some (some (a ^^^ twist b c)) := by
  obtain ⟨a, b, c, ha, hb, hc, hk⟩ := h
  obtain ⟨hm, hu, hv⟩ := MixIndices.forall_reads.1 hreads
  exact ⟨a, b, c, (safeRead_ok_iff hm).1 ha, (safeRead_ok_iff hu).1 hb, (safeRead_ok_iff hv).1 hc, hk⟩

theorem mixAt_other {x : MixIndices} {ws ws' : Words} {j : Nat} (h : mixAt x ws = .ok ws') (hj : j ≠ x.target) :
    ws'[j]? = ws[j]? :=
  storeMix_other h hj.symm

/-- A statement whose reads complete, none of them at its own element, completes and holds as an equation. -/
theorem mixAt_completes {x : MixIndices} {ws : Words} (htarget : x.target < ws.length)
    (hreads : ∀ j ∈ x.reads, j ≠ x.target ∧ ∃ w, safeRead ws j = .ok w) :
    ∃ ws', mixAt x ws = .ok ws' ∧ Mixed x ws' := by
  obtain ⟨⟨hm, a, ha⟩, ⟨hu, b, hb⟩, ⟨hv, c, hc⟩⟩ := MixIndices.forall_reads.1 hreads
  have keep {j : Nat} (hj : j ≠ x.target) : safeRead (writeWord ws x.target (a ^^^ twist b c)) j = safeRead ws j :=
    safeRead_congr (getElem?_writeWord_other hj.symm _)
  exact ⟨writeWord ws x.target (a ^^^ twist b c), storeMix_ok_iff.2 ⟨a, b, c, ha, hb, hc, rfl⟩,
    a, b, c, (keep hm).trans ha, (keep hu).trans hb, (keep hv).trans hc, getElem?_writeWord_same htarget _⟩

/-- What the loop of the statements `ix first, ix (first + 1), …` has made of `ws` before iteration `i`, iteration `k`
writing element `k + off`. -/
structure MixedUpTo (ix : Nat → MixIndices) (off : Nat) (ws : Words) (first i : Nat) (us : Words) : Prop where
  size : us.length = 624
  other : ∀ j, j < first + off ∨ i + off ≤ j → us[j]? = ws[j]?
  written : Written (i + off) us
  mixed : ∀ k, first ≤ k → k < i → Mixed (ix k) us

section
variable {body : Nat → Words → Except Fault Words} {ix : Nat → MixIndices} {off first count : Nat} {ws : Words}
  (hbody : ∀ i us, first ≤ i → i < first + count → body i us = mixAt (ix i) us)
  (htarget : ∀ i, (ix i).target = i + off)
  (hreads : ∀ i, first ≤ i → i < first + count → ∀ j ∈ (ix i).reads,
    j < i + off ∨ (first + count + off ≤ j ∧ ∃ w, safeRead ws j = .ok w))
  (hfit : first + count + off ≤ 624)
include htarget hreads hfit

/-- Iteration `i` reads below its own element or past the loop's last, so it changes no element that an iteration before
it wrote or read. -/
theorem MixedUpTo.step {i : Nat} {us : Words} (h : MixedUpTo ix off ws first i us) (hi : first ≤ i)
    (hlt : i < first + count) : ∃ us', mixAt (ix i) us = .ok us' ∧ MixedUpTo ix off ws first (i + 1) us' := by
  have completes : ∀ j ∈ (ix i).reads, j ≠ (ix i).target ∧ ∃ w, safeRead us j = .ok w := by
    intro j hj
    rw [htarget]
    rcases hreads i hi hlt j hj with hlow | ⟨hhigh, hw⟩
    · exact ⟨by omega, h.written.safeRead_ok (by omega) hlow⟩
    · refine ⟨by omega, ?_⟩
      rwa [safeRead_congr (h.other j (by omega))]
  obtain ⟨us', hmix, hmixed⟩ := mixAt_completes (by rw [htarget, h.size]; omega) completes
  have keep {j : Nat} (hj : j ≠ i + off) : us'[j]? = us[j]? := mixAt_other hmix (by rwa [htarget])
  refine ⟨us', hmix, (storeMix_length hmix).trans h.size, fun j hj => ?_, fun j hj => ?_, fun k hk hki => ?_⟩
  · rw [keep (by omega), h.other j (by omega)]
  · by_cases hij : j = i + off
    · rw [hij, ← htarget]
      exact hmixed.target_written
    · rw [keep hij]
      exact h.written j (by omega)
  · by_cases hik : k = i
    · rw [hik]
      exact hmixed
    · refine (h.mixed k hk (by omega)).congr (keep (by rw [htarget]; omega)) fun j hj => keep ?_
      rcases hreads k hk (by omega) j hj with hlow | ⟨hhigh, -⟩ <;> omega

include hbody in
/-- A refill's loop completes, and the array it leaves satisfies all its statements as equations. -/
theorem forWords_mixes (hsize : ws.length = 624) (hw : Written (first + off) ws) :
    ∃ ws', forWords body count first ws = .ok ws' ∧ MixedUpTo ix off ws first (first + count) ws' := by
  refine forWords_completes (MixedUpTo ix off ws first) count first ws
    ⟨hsize, fun _ _ => rfl, hw, fun k hk hlt => absurd hlt (by omega)⟩ fun i us hi hlt h => ?_
  rw [hbody i us hi hlt]
  exact h.step htarget hreads hfit hi hlt

end

/-- The loop writes elements and unwrites none. -/
theorem MixedUpTo.written_all {ix : Nat → MixIndices} {off first i : Nat} {ws us : Words}
    (h : MixedUpTo ix off ws first i us) (hw : Written 624 ws) : Written 624 us := by
  intro j hj
  by_cases hlt : j < i + off
  · exact h.written j hlt
  · rw [h.other j (.inr (Nat.le_of_not_lt hlt))]
    exact hw j hj

/-! ### HalfRefill (41_twister.md R127, R129) -/

/-- Iteration `i` of HalfRefill. -/
def halfIndices (i : Nat) : MixIndices := ⟨i + 311, i + 155, i - 1, i⟩

theorem halfBody_eq {i : Nat} (hi : i ≤ 312) (ws : Words) : halfBody i ws = mixAt (halfIndices i) ws := by
  simp only [halfBody, mixAt, halfIndices, safeRead_of_lt (show i + 155 < 624 by omega),
    safeRead_of_lt (show i - 1 < 624 by omega), safeRead_of_lt (show i < 624 by omega)]

theorem mem_halfIndices_reads {i j : Nat} (hj : j ∈ (halfIndices i).reads) :
    j = i + 155 ∨ j = i - 1 ∨ j = i := by
  simpa [MixIndices.reads, halfIndices] using hj

theorem halfRefill_mixes {ws : Words} (hsize : ws.length = 624) (hw : Written 313 ws) :
    ∃ ws', halfRefill ws = .ok ws' ∧ MixedUpTo halfIndices 311 ws 1 313 ws' := by
  refine forWords_mixes (fun i us _ hlt => halfBody_eq (by omega) us) (fun _ => rfl) (fun i hi hlt j hj => ?_) le_rfl
    hsize (hw.mono (by omega))
  have := mem_halfIndices_reads hj
  omega

/-- Settles O30, from the loop's equations. -/
theorem halfRefillWritesTheUpperHalf : Obligations.HalfRefillWritesTheUpperHalf := by
  intro ws hsize hw
  obtain ⟨ws', hrun, h⟩ := halfRefill_mixes hsize hw
  refine ⟨ws', hrun, h.size, fun j hj => h.other j (.inl hj), fun i hi hle => ?_⟩
  refine (h.mixed i hi (by omega)).elements (x := halfIndices i) fun j hj => ?_
  have := mem_halfIndices_reads hj
  omega

/-! ### FullRefillAndReset (41_twister.md R125, R128, R130) -/

/-- Iteration `k` of the full refill's two loops. -/
def fullIndices (k : Nat) : MixIndices := ⟨k, if k ≤ 156 then k + 468 else k - 156, k + 312, k + 313⟩

/-- The full refill's last statement. -/
def lastIndices : MixIndices := ⟨311, 155, 623, 0⟩

theorem fullBody1_eq {k : Nat} (hk : k ≤ 156) (ws : Words) : fullBody1 k ws = mixAt (fullIndices k) ws := by
  simp only [fullBody1, mixAt, fullIndices, if_pos hk, safeRead_of_lt (show k + 312 < 624 by omega)]

theorem fullBody2_eq {k : Nat} (hk : 156 < k) (hlt : k < 312) (ws : Words) :
    fullBody2 k ws = mixAt (fullIndices k) ws := by
  simp only [fullBody2, mixAt, fullIndices, if_neg (Nat.not_le.2 hk), safeRead_of_lt (show k + 312 < 624 by omega),
    safeRead_of_lt (show k - 156 < 624 by omega)]

theorem fullLast_eq (ws : Words) : fullLast ws = mixAt lastIndices ws := by
  simp only [fullLast, mixAt, lastIndices, safeRead_of_lt (show 155 < 624 by omega),
    safeRead_of_lt (show 623 < 624 by omega), safeRead_of_lt (show 0 < 624 by omega)]

theorem mem_fullIndices_reads {k j : Nat} (hj : j ∈ (fullIndices k).reads) :
    (k ≤ 156 ∧ j = k + 468) ∨ (156 < k ∧ j = k - 156) ∨ j = k + 312 ∨ j = k + 313 := by
  simp only [MixIndices.reads, fullIndices, List.mem_cons, List.not_mem_nil, or_false] at hj
  split at hj <;> omega

theorem fullLoop1_mixes {ws : Words} (hsize : ws.length = 624) (hw : Written 624 ws) :
    ∃ ws1, forWords fullBody1 156 1 ws = .ok ws1 ∧ MixedUpTo fullIndices 0 ws 1 157 ws1 := by
  refine forWords_mixes (fun k us _ hlt => fullBody1_eq (by omega) us) (fun _ => rfl) (fun k hk hlt j hj => ?_)
    (by omega) hsize (hw.mono (by omega))
  have := mem_fullIndices_reads hj
  exact .inr ⟨by omega, hw.safeRead_completes j⟩

theorem fullLoop2_mixes {ws : Words} (hsize : ws.length = 624) (hw : Written 624 ws) :
    ∃ ws2, forWords fullBody2 155 157 ws = .ok ws2 ∧ MixedUpTo fullIndices 0 ws 157 312 ws2 := by
  refine forWords_mixes (fun k us hk hlt => fullBody2_eq (by omega) (by omega) us) (fun _ => rfl)
    (fun k hk hlt j hj => ?_) (by omega) hsize (hw.mono (by omega))
  have := mem_fullIndices_reads hj
  by_cases hjk : j < k + 0
  · exact .inl hjk
  · exact .inr ⟨by omega, hw.safeRead_completes j⟩

theorem fullLast_mixes {ws : Words} (hsize : ws.length = 624) (hw : Written 624 ws) :
    ∃ ws', fullLast ws = .ok ws' ∧ ws'.length = 624 ∧ Mixed lastIndices ws' ∧ ∀ j, j ≠ 311 → ws'[j]? = ws[j]? := by
  obtain ⟨ws', hrun, hmixed⟩ := mixAt_completes (x := lastIndices) (ws := ws) (by rw [hsize]; decide)
    fun j hj => ⟨fun h => by simp [h, lastIndices, MixIndices.reads] at hj, hw.safeRead_completes j⟩
  exact ⟨ws', (fullLast_eq ws).trans hrun, (storeMix_length hrun).trans hsize, hmixed, fun j hj => mixAt_other hrun hj⟩

/-- What FullRefillAndReset makes of `ws`: every statement but the overwritten one of `k = 311` holds as an equation. -/
structure FullyMixed (ws ws' : Words) : Prop where
  run : fullRefill ws = .ok ws'
  size : ws'.length = 624
  written : Written 624 ws'
  mixed : ∀ k, 1 ≤ k → k ≤ 310 → Mixed (fullIndices k) ws'
  last : Mixed lastIndices ws'

/-- No statement of the full refill writes an element that an earlier one read, and only the last one writes an element,
311, that an earlier one wrote. -/
theorem fullRefill_mixes {ws : Words} (hsize : ws.length = 624) (hw : Written 624 ws) : ∃ ws', FullyMixed ws ws' := by
  obtain ⟨ws1, hrun1, h1⟩ := fullLoop1_mixes hsize hw
  obtain ⟨ws2, hrun2, h2⟩ := fullLoop2_mixes h1.size (h1.written_all hw)
  have hw2 : Written 624 ws2 := h2.written_all (h1.written_all hw)
  obtain ⟨ws', hrun3, hsize', hlast, hother⟩ := fullLast_mixes h2.size hw2
  have mixed2 : ∀ k, 1 ≤ k → k ≤ 310 → Mixed (fullIndices k) ws2 := by
    intro k hk hle
    by_cases hk2 : 157 ≤ k
    · exact h2.mixed k hk2 (by omega)
    · refine (h1.mixed k hk (by omega)).congr (h2.other k (by omega)) fun j hj => h2.other j ?_
      have := mem_fullIndices_reads hj
      omega
  refine ⟨ws', ?_, hsize', fun j hj => ?_, fun k hk hle => ?_, hlast⟩
  · simp only [fullRefill, hrun1, hrun2, hrun3]
  · by_cases h311 : j = 311
    · exact h311 ▸ hlast.target_written
    · exact hother j h311 ▸ hw2 j hj
  · refine (mixed2 k hk hle).congr (hother k (by omega)) fun j hj => hother j ?_
    have := mem_fullIndices_reads hj
    omega

/-- Settles O31, element by element; at `k = 156` the first read is SafeRead(624), the sentinel. -/
theorem fullRefillWritesTheLowerHalf : Obligations.FullRefillWritesTheLowerHalf := by
  intro ws hsize hw
  obtain ⟨ws', h⟩ := fullRefill_mixes hsize hw
  have elements (k : Nat) (hk : 1 ≤ k) (hle : k ≤ 310) (hne : k ≠ 156) :=
    (h.mixed k hk hle).elements (x := fullIndices k) fun j hj => by have := mem_fullIndices_reads hj; omega
  refine ⟨ws', h.run, h.size, fullRefill_other h.run (.inl rfl), fun j hj => fullRefill_other h.run (.inr hj),
    fun k hk hle => ?_, ?_, fun k hk hle => ?_, h.last.elements (by decide)⟩
  · simpa only [fullIndices, if_pos (show k ≤ 156 by omega)] using elements k hk (by omega) (by omega)
  · obtain ⟨a, b, c, ha, hb, hc, hk⟩ := h.mixed 156 (by omega) (by omega)
    cases (safeRead_of_ge (ws := ws') (le_refl 624)).symm.trans ha
    exact ⟨b, c, (safeRead_ok_iff (by decide)).1 hb, (safeRead_ok_iff (by decide)).1 hc, hk⟩
  · simpa only [fullIndices, if_neg (show ¬ k ≤ 156 by omega)] using elements k (by omega) hle (by omega)

/-! ### Initialize, Twist, Temper (41_twister.md R121, R124, R126) -/

/-- The words of the recurrence of R121. -/
def initWord (seed : Word) : Nat → Word
  | 0 => seed
  | i + 1 => initStep (initWord seed i) (i + 1)

/-- The initialisation loop, begun at any index of the recurrence, goes on with it. -/
theorem getElem?_initWordsFrom (seed : Word) : ∀ count i j, j < count →
    (initWordsFrom count (i + 1) (initWord seed i))[j]? = some (some (initWord seed (i + 1 + j)))
  | count + 1, i, 0, _ => rfl
  | count + 1, i, j + 1, h => by
    have ih := getElem?_initWordsFrom seed count (i + 1) j (Nat.lt_of_succ_lt_succ h)
    rw [show i + 1 + (j + 1) = i + 1 + 1 + j from by omega, ← ih]
    rfl

theorem getElem?_initWords_written (seed : Word) {i : Nat} (hi : i < 313) :
    (initWords seed)[i]? = some (some (initWord seed i)) := by
  cases i with
  | zero => rfl
  | succ j =>
    have hj : j < 312 := Nat.lt_of_succ_lt_succ hi
    have hloop := getElem?_initWordsFrom seed 312 0 j hj
    rw [Nat.zero_add, Nat.add_comm 1 j] at hloop
    rw [initWords, List.getElem?_cons_succ, List.getElem?_append_left (by rwa [length_initWordsFrom])]
    exact hloop

theorem getElem?_initWords_unwritten (seed : Word) {i : Nat} (hi : 313 ≤ i) (hlt : i < 624) :
    (initWords seed)[i]? = some none := by
  obtain ⟨j, rfl⟩ := Nat.exists_eq_add_of_le' hi
  rw [initWords, List.getElem?_cons_succ, List.getElem?_append_right (by rw [length_initWordsFrom]; omega),
    length_initWordsFrom]
  exact List.getElem?_replicate_of_lt (by omega)

/-- Settles O25: element `i` is word `i` of the recurrence. -/
theorem initializeWritesTheRecurrence : Obligations.InitializeWritesTheRecurrence :=
  fun x => ⟨rfl, rfl, length_initWords x,
    ⟨initWord x, rfl, fun _ _ => rfl, fun _ hi => getElem?_initWords_written x (Nat.lt_succ_of_le hi)⟩,
    fun _ => getElem?_initWords_unwritten x⟩

/-- Settles O28: the lower mask holds bit 0 and the upper one does not, so bit 0 of the mix is that of `v`. -/
theorem twistSplitsAndMixes : Obligations.TwistSplitsAndMixes := by
  intro u v
  have hodd : ((u &&& upperMask) ||| (v &&& lowerMask)).getLsbD 0 = v.getLsbD 0 := by
    simp [upperMask, lowerMask]
  rw [twist, hodd]
  cases v.getLsbD 0 with
  | false => exact BitVec.xor_zero.symm
  | true => rfl

/-- Settles O29: each step of the cascade has a name in turn. -/
theorem temperIsTheFourStepCascade : Obligations.TemperIsTheFourStepCascade := by
  refine ⟨?_, by decide⟩
  rintro x _ _ _ rfl rfl rfl
  rfl

/-! ### SEED and SEEDH (41_twister.md R122, R123) -/

/-- Settles O26: SEED is one response OK over the fresh engine. -/
theorem seedInitialisesTheEngine : Obligations.SeedInitialisesTheEngine :=
  fun s x => congrArg Host.Outcome.next (respond_ok x (setEngine (initEngine x) s))

/-- Settles O27: SEEDH is SEED of HASH. -/
theorem seedhInitialisesFromHash : Obligations.SeedhInitialisesFromHash :=
  fun s => seedInitialisesTheEngine s s.hash.value

/-- Settles O35: a seeding sets the whole engine, and the four commands leave it whole. -/
theorem wordsDependOnTheSeedAlone : Obligations.WordsDependOnTheSeedAlone := by
  constructor
  · intro s s' t t' x h h' n
    rw [seedInitialisesTheEngine] at h h'
    cases h
    cases h'
    rfl
  · intro i s t h hi n
    obtain ⟨-, -, -, hframe⟩ := commandFrames i s t h
    rcases hi with rfl | ⟨_, rfl⟩ | ⟨_, _, rfl⟩ | ⟨_, rfl⟩ <;> rw [hframe.1]

theorem initEngine_inv (x : Word) : EngineInv (initEngine x) where
  size := length_initWords x
  unseeded h := by cases h
  seeded _ := ⟨312, rfl, by decide, fun _ hi => ⟨_, getElem?_initWords_written x hi⟩, fun h => absurd rfl h⟩

/-! ### NextWord and NEXT (41_twister.md R131, R132) -/

/-- After NextWord's refill every element is written, and the index to read is IDX, or 0 where IDX is 624. -/
theorem refill_completes {v : BitVec 10} {ws : Words} (hsize : ws.length = 624) (hv : v.toNat ≤ 624)
    (h313 : Written 313 ws) (h624 : v.toNat ≠ 312 → Written 624 ws) :
    ∃ v' ws', refill v ws = .ok (v', ws') ∧ v'.toNat = v.toNat % 624 ∧ ws'.length = 624 ∧ Written 624 ws' := by
  unfold refill
  split_ifs with hhalf hfull
  · obtain ⟨ws', hrun, h⟩ := halfRefill_mixes hsize h313
    exact ⟨v, ws', by rw [hrun], by rw [hhalf]; rfl, h.size, h.written⟩
  · obtain ⟨ws', h⟩ := fullRefill_mixes hsize (h624 hhalf)
    exact ⟨0, ws', by rw [h.run], by rw [Nat.le_antisymm hv hfull]; rfl, h.size, h.written⟩
  · exact ⟨v, ws, rfl, (Nat.mod_eq_of_lt (Nat.lt_of_not_le hfull)).symm, hsize, h624 hhalf⟩

/-- Which refill ran, by the value of IDX. -/
theorem refill_modes {v v' : BitVec 10} {ws ws' : Words} (h : refill v ws = .ok (v', ws')) :
    (v.toNat = 312 → halfRefill ws = .ok ws') ∧ (624 ≤ v.toNat → fullRefill ws = .ok ws') ∧
      (v.toNat ≠ 312 → v.toNat < 624 → ws' = ws) := by
  rcases refill_ok_cases h with ⟨h312, -, hrun⟩ | ⟨hge, -, hrun⟩ | ⟨hne, hlt, -, rfl⟩
  · exact ⟨fun _ => hrun, fun hge => by omega, fun hne => absurd h312 hne⟩
  · exact ⟨fun h312 => by omega, fun _ => hrun, fun _ hlt => absurd hge (Nat.not_le.2 hlt)⟩
  · exact ⟨fun h312 => absurd h312 hne, fun hge => absurd hge (Nat.not_le.2 hlt), fun _ _ => rfl⟩

/-- A call of NextWord on the engine `e`, whose IDX is `v`: it answers `w` and leaves `e'`. -/
structure NextCall (e : Engine) (v : Nat) (w : Word) (e' : Engine) : Prop where
  run : nextWord e = .ok (w, e')
  inv : EngineInv e'
  seeded : e'.seeded = true
  idx : e'.idx = some (BitVec.ofNat 10 (v % 624 + 1))
  read : ∃ y, e'.words[v % 624]? = some (some y) ∧ w = temper y
  primed : v = 312 → halfRefill e.words = .ok e'.words
  exhausted : 624 ≤ v → fullRefill e.words = .ok e'.words
  normal : v ≠ 312 → v < 624 → e'.words = e.words

/-- On a sound seeded engine NextWord completes (41_twister.md R140). -/
theorem nextWord_completes {e : Engine} {v : BitVec 10} (hinv : EngineInv e) (hs : e.seeded = true)
    (hv : e.idx = some v) : ∃ w e', NextCall e v.toNat w e' := by
  obtain ⟨_, hidx, hle, h313, h624⟩ := hinv.seeded hs
  cases hv.symm.trans hidx
  obtain ⟨v', ws, hrefill, hv', hsize, hw⟩ := refill_completes hinv.size hle h313 h624
  obtain ⟨hprimed, hexhausted, hnormal⟩ := refill_modes hrefill
  obtain ⟨y, hy⟩ := hw v'.toNat (by omega)
  have hnext : BitVec.ofNat 10 (v.toNat % 624 + 1) = v' + 1 := by bv_omega
  exact ⟨temper y, ⟨ws, some (v' + 1), true⟩,
    { run := nextWord_ok_iff.2 ⟨v, v', ws, y, hv, hrefill, readWord_ok_iff.2 hy, rfl, by rw [hs]⟩
      inv :=
        { size := hsize
          unseeded := nofun
          seeded := fun _ => ⟨v' + 1, rfl, by bv_omega, hw.mono (by omega), fun _ => hw⟩ }
      seeded := rfl
      idx := by rw [hnext]
      read := ⟨y, hv' ▸ hy, rfl⟩
      primed := hprimed
      exhausted := hexhausted
      normal := hnormal }⟩

theorem NextCall.engine_eq {e e' : Engine} {v : Nat} {w : Word} (h : NextCall e v w e') :
    e' = { words := e'.words, idx := some (BitVec.ofNat 10 (v % 624 + 1)), seeded := true } := by
  rw [← h.idx, ← h.seeded]

/-- NEXT on a seeded engine is one call of NextWord. -/
theorem NextCall.exec_next {s : State} {v : Nat} {w : Word} {e' : Engine} (h : NextCall s.engine v w e')
    (hs : s.engine.seeded = true) : exec .next s = .next (answered w { s with engine := e' }) := by
  change execNext s = _
  rw [execNext, if_pos hs, h.run]
  rfl

/-- Settles O32, from the engine that the call leaves in each of its three modes. -/
theorem nextAnswersOneTemperedWord : Obligations.NextAnswersOneTemperedWord := by
  intro s v hs hv hinv
  obtain ⟨w, e', h⟩ := nextWord_completes hinv hs hv
  obtain ⟨y, hy, rfl⟩ := h.read
  have hexec := h.exec_next hs
  rw [h.engine_eq] at hexec
  refine ⟨fun hne hlt => ?_, fun h312 => ?_, fun hge => ?_⟩
  · rw [Nat.mod_eq_of_lt hlt, h.normal hne hlt] at hy hexec
    exact ⟨y, hy, by simp only [hexec, hs]⟩
  · rw [h312] at hy hexec
    exact ⟨e'.words, y, h.primed h312, hy, hexec⟩
  · obtain ⟨_, hidx, hle, -⟩ := hinv.seeded hs
    cases hv.symm.trans hidx
    rw [Nat.le_antisymm hle hge] at hy hexec
    exact ⟨e'.words, y, h.exhausted hge, hy, hexec⟩

/-! ### The calls after a seeding, numbered (41_twister.md R133, R134) -/

/-- IDX after call `n` of NextWord from a seeding. -/
def idxAfter (n : Nat) : Nat := if (n + 312) % 624 = 0 then 624 else (n + 312) % 624

theorem idxAfter_le (n : Nat) : idxAfter n ≤ 624 := by
  unfold idxAfter
  split <;> omega

theorem idxAfter_mod (n : Nat) : idxAfter n % 624 = (n + 1 + 311) % 624 := by
  unfold idxAfter
  split <;> omega

theorem idxAfter_succ (n : Nat) : idxAfter (n + 1) = idxAfter n % 624 + 1 := by
  unfold idxAfter
  split <;> split <;> omega

theorem idxAfter_eq_312_iff (n : Nat) : idxAfter n = 312 ↔ (n + 1) % 624 = 1 := by
  unfold idxAfter
  split <;> omega

theorem idxAfter_ge_624_iff (n : Nat) : 624 ≤ idxAfter n ↔ (n + 1) % 624 = 313 := by
  unfold idxAfter
  split <;> omega

/-- The engine after `n` calls of NextWord from a seeding with `x`. -/
structure AfterCalls (x : Word) (n : Nat) (e : Engine) : Prop where
  inv : EngineInv e
  seeded : e.seeded = true
  idx : e.idx = some (BitVec.ofNat 10 (idxAfter n))
  seedWord : e.words[0]? = some (some x)

theorem afterCalls_initEngine (x : Word) : AfterCalls x 0 (initEngine x) := ⟨initEngine_inv x, rfl, rfl, rfl⟩

/-- Call `n + 1` completes. -/
theorem AfterCalls.next {x : Word} {n : Nat} {e : Engine} (h : AfterCalls x n e) :
    ∃ w e', NextCall e (idxAfter n) w e' ∧ AfterCalls x (n + 1) e' := by
  obtain ⟨w, e', hcall⟩ := nextWord_completes h.inv h.seeded h.idx
  rw [BitVec.toNat_ofNat, Nat.mod_eq_of_lt (Nat.lt_of_le_of_lt (idxAfter_le n) (by decide))] at hcall
  exact ⟨w, e', hcall, hcall.inv, hcall.seeded, by rw [idxAfter_succ, hcall.idx],
    (nextWord_word_zero hcall.run).trans h.seedWord⟩

/-- Call `n + 1` as R133 numbers it: the index it reads, and the refill it runs. -/
structure NumberedCall (n : Nat) (e : Engine) (w : Word) (e' : Engine) : Prop where
  idx : e'.idx = some (BitVec.ofNat 10 (idxAfter (n + 1)))
  read : ∃ y, e'.words[(n + 1 + 311) % 624]? = some (some y) ∧ w = temper y
  half : (n + 1) % 624 = 1 → halfRefill e.words = .ok e'.words
  full : (n + 1) % 624 = 313 → fullRefill e.words = .ok e'.words
  neither : (n + 1) % 624 ≠ 1 → (n + 1) % 624 ≠ 313 → e'.words = e.words

theorem NextCall.numbered {n : Nat} {e e' : Engine} {w : Word} (h : NextCall e (idxAfter n) w e') :
    NumberedCall n e w e' where
  idx := by rw [idxAfter_succ, h.idx]
  read := idxAfter_mod n ▸ h.read
  half := fun h1 => h.primed ((idxAfter_eq_312_iff n).2 h1)
  full := fun h313 => h.exhausted ((idxAfter_ge_624_iff n).2 h313)
  neither := fun h1 h313 => h.normal (mt (idxAfter_eq_312_iff n).1 h1)
    (Nat.lt_of_not_le (mt (idxAfter_ge_624_iff n).1 h313))

/-- Call `n ≡ 313` reads WORDS[0], which holds the seed. -/
theorem NumberedCall.answers_seed {x : Word} {n : Nat} {e e' : Engine} {w : Word} (h : NumberedCall n e w e')
    (ha : AfterCalls x (n + 1) e') (hn : (n + 1) % 624 = 313) : w = temper x := by
  obtain ⟨y, hy, rfl⟩ := h.read
  rw [show (n + 1 + 311) % 624 = 0 by omega, ha.seedWord] at hy
  cases hy
  rfl

/-- One more call at the end of a run of calls. -/
theorem nextWords_snoc {e u e' : Engine} {w : Word} {n : Nat} {ws : List Word} (h : nextWords n e = .ok (ws, u))
    (hlast : nextWord u = .ok (w, e')) : nextWords (n + 1) e = .ok (ws ++ [w], e') := by
  induction n generalizing e ws with
  | zero =>
    cases h
    simp [nextWords, hlast]
  | succ n ih =>
    rw [nextWords] at h
    split at h
    · cases h
    · next w1 e1 h1 =>
      split at h
      · cases h
      · next ws1 e2 h2 =>
        cases h
        rw [nextWords, h1]
        simp [ih h2]

/-- Any number of calls from a seeding completes, and every call `n ≡ 313` answers the tempered seed. -/
theorem nextWords_initEngine (x : Word) (n : Nat) :
    ∃ ws e, nextWords n (initEngine x) = .ok (ws, e) ∧ AfterCalls x n e ∧ ws.length = n ∧
      ∀ k, k < n → (k + 1) % 624 = 313 → ws[k]? = some (temper x) := by
  induction n with
  | zero => exact ⟨[], initEngine x, rfl, afterCalls_initEngine x, rfl, fun _ hk => absurd hk (by omega)⟩
  | succ n ih =>
    obtain ⟨ws, u, hrun, hu, hlen, hws⟩ := ih
    obtain ⟨w, e, hcall, he⟩ := hu.next
    refine ⟨ws ++ [w], e, nextWords_snoc hrun hcall.run, he, by simp [hlen], fun k hk hmod => ?_⟩
    rcases Nat.lt_succ_iff_lt_or_eq.1 hk with hlt | rfl
    · rw [List.getElem?_append_left (hlen ▸ hlt)]
      exact hws k hlt hmod
    · rw [← hlen, List.getElem?_concat_length, hcall.numbered.answers_seed he hmod]

/-- Settles O59, by the number of calls before. -/
theorem nextWordPeriodicity : Obligations.NextWordPeriodicity := by
  intro x n
  obtain ⟨ws, u, hrun, hu, -⟩ := nextWords_initEngine x n
  obtain ⟨w, e, hcall, he⟩ := hu.next
  have h := hcall.numbered
  exact ⟨ws, u, e, w, hrun, hcall.run, he.seeded, h.idx, h.read, h.half, h.full, h.neither⟩

/-- Any number of NEXT after a SEED completes, and NEXT `n ≡ 313` answers the tempered seed. -/
theorem execSeq_seed_nexts (s : State) (x : Word) (n : Nat) :
    ∃ t, execSeq (.seed x :: List.replicate n .next) s = .next t ∧ AfterCalls x n t.engine ∧
      (n % 624 = 313 → t.rsp.data = some (temper x)) := by
  induction n with
  | zero => exact ⟨_, rfl, afterCalls_initEngine x, nofun⟩
  | succ n ih =>
    obtain ⟨u, hrun, hu, -⟩ := ih
    obtain ⟨w, e, hcall, he⟩ := hu.next
    refine ⟨answered w { u with engine := e }, ?_, he, fun hmod => congrArg some (hcall.numbered.answers_seed he hmod)⟩
    rw [List.replicate_succ', ← List.cons_append, execSeq_append hrun, execSeq, hcall.exec_next hu.seeded]
    rfl

/-- Settles O33: NEXT makes the call of NextWord that `NumberedCall` describes. -/
theorem refillPeriodicity : Obligations.RefillPeriodicity := by
  intro s x n
  obtain ⟨u, hrun, hu, -⟩ := execSeq_seed_nexts s x n
  obtain ⟨w, e, hcall, -⟩ := hu.next
  have h := hcall.numbered
  obtain ⟨y, hy, rfl⟩ := h.read
  exact ⟨u, answered (temper y) { u with engine := e }, hrun, hcall.exec_next hu.seeded, h.idx, ⟨y, hy, rfl⟩, h.half,
    h.full, h.neither⟩

/-- With `rst` low, only an accepted SEED or SEEDH writes WORDS[0]. -/
theorem step_word_zero {s t : State} (hrst : (hostMove s).host.pins.rst = false)
    (hseed : ∀ p i, cmdReady (hostMove s) = true → (hostMove s).host.pins.cmd = some p → decode p = .ok i →
      (∀ x, i ≠ .seed x) ∧ i ≠ .seedh)
    (h : step s = .next t) : t.engine.words[0]? = s.engine.words[0]? := by
  rcases step_engine_cases h with ⟨hr, -⟩ | he | ⟨-, -, w, hw⟩ | ⟨p, i, hp, hready, hd, ⟨hi, -⟩ | ⟨-, w, hw⟩⟩
  · simp [hrst] at hr
  · rw [he]
  · exact nextWord_word_zero hw
  · obtain ⟨hne, hneh⟩ := hseed p i (by simpa [cmdReady] using hready) hp hd
    rcases hi with ⟨x, hx⟩ | hx
    · exact absurd hx (hne x)
    · exact absurd hx hneh
  · exact nextWord_word_zero hw

/-- Settles O34: NextWord leaves WORDS[0], and call `n ≡ 313` reads it. -/
theorem seedWordIsKeptAndReturned : Obligations.SeedWordIsKeptAndReturned := by
  refine ⟨fun s t => step_word_zero, fun s x n => ?_, fun x n => ?_⟩
  · obtain ⟨t, hrun, ht, hanswer⟩ := execSeq_seed_nexts s x n
    exact ⟨t, hrun, ht.seedWord, hanswer⟩
  · obtain ⟨ws, e, hrun, he, -, hws⟩ := nextWords_initEngine x n
    exact ⟨ws, e, hrun, he.seedWord, hws⟩

end Sys2Proof
end

section
/-! PROOFS. The invariant of a sound state (41_twister.md R140, 10_state.md R24, R28, R35, R36): what each operation on
the state needs in order to keep it, once; then commands, micro-steps and steps; then that a step from it never stops. -/

namespace Sys2Proof

open Machine

/-! ### The parts of the invariant -/

theorem drawInv_of_idle {s : State} (hb : s.draw.busy = false) : DrawInv s := fun h => by simp [hb] at h

theorem errInv_recordError {e : ErrorRecord} (h : ErrInv e) (st : Status) : ErrInv (recordError (statusCode st) e) := by
  cases st with
  | ok => exact h
  | illegalCmd | notSeeded | invalidRange | configError | samplingExhausted =>
    exact ⟨nofun, fun _ => ⟨of_decide_eq_true rfl, of_decide_eq_true rfl⟩⟩

theorem statusCode_le (st : Status) : (statusCode st).toNat ≤ 5 := by
  cases st <;> decide

theorem reset_engineInv : EngineInv State.reset.engine where
  size := List.length_replicate
  unseeded _ := ⟨rfl, fun _ hw => List.eq_of_mem_replicate hw⟩
  seeded h := by cases h

theorem reset_cfgInv : CfgInv State.reset.cfg := ⟨by decide, by decide⟩

/-- ACC_V is no longer than ACC_D (42_range_sampler.md R168). -/
def AccInv (v d : Acc) : Prop := ∀ k, d.toNat < 2 ^ k → v.toNat < 2 ^ k

theorem accInv_zero : AccInv 0 0 := fun k _ => Nat.two_pow_pos k

/-- TEST shifts only an ACC_D below 2^32, so no bit leaves either accumulator. -/
theorem AccInv.shiftLeft {v d : Acc} (h : AccInv v d) {b : Nat} (hb : b ≤ 64) (hd : d.toNat < 2 ^ 32) :
    AccInv (v <<< b) (d <<< b) := by
  have noLoss {x : Acc} (hx : x.toNat < 2 ^ 32) : (x <<< b).toNat = x.toNat * 2 ^ b := by
    rw [BitVec.toNat_shiftLeft, Nat.shiftLeft_eq]
    refine Nat.mod_eq_of_lt ?_
    calc x.toNat * 2 ^ b < 2 ^ 32 * 2 ^ 64 :=
          Nat.mul_lt_mul_of_lt_of_le hx (Nat.pow_le_pow_right (by omega) hb) (by decide)
      _ = 2 ^ 96 := by decide
  intro k hk
  rw [noLoss hd] at hk
  rw [noLoss (h 32 hd)]
  by_cases hbk : b ≤ k
  · obtain ⟨j, rfl⟩ := Nat.exists_eq_add_of_le' hbk
    rw [Nat.pow_add] at hk ⊢
    exact Nat.mul_lt_mul_of_pos_right (h j (Nat.lt_of_mul_lt_mul_right hk)) (Nat.two_pow_pos b)
  · have hd0 : d.toNat < 2 ^ 0 := Nat.lt_of_mul_lt_mul_right
      (hk.trans_le (by rw [Nat.pow_zero, Nat.one_mul]; exact Nat.pow_le_pow_right (by omega) (by omega)))
    rw [Nat.lt_one_iff.1 (h 0 hd0), Nat.zero_mul]
    exact Nat.two_pow_pos k

/-- FETCH ORs in a word that is no longer than CFG_MAX. -/
theorem AccInv.or {v d : Acc} (h : AccInv v d) {raw max : Word} (hle : raw.toNat ≤ max.toNat) :
    AccInv (v ||| raw.setWidth 96) (d ||| max.setWidth 96) := by
  intro k hk
  have hor := BitVec.toNat_or d (max.setWidth 96)
  rw [BitVec.toNat_setWidth_of_le (by decide)] at hor
  rw [hor] at hk
  rw [BitVec.toNat_or, BitVec.toNat_setWidth_of_le (by decide)]
  exact Nat.or_lt_two_pow (h k (Nat.left_le_or.trans_lt hk)) (hle.trans_lt (Nat.right_le_or.trans_lt hk))

/-! ### What the operations on the state keep -/

theorem inv_setHost {s : State} (h : Inv s) (p : HostPort) : Inv (setHost p s) :=
  ⟨h.engine, h.cfg, h.err, h.rsp, h.draw⟩

theorem inv_accept {s : State} (h : Inv s) : Inv (accept s) := inv_setHost h _

theorem inv_hostMove {s : State} (h : Inv s) : Inv (hostMove s) := by
  rw [hostMove_eq]
  exact inv_setHost h _

theorem inv_setHash {s : State} (h : Inv s) (v : Word) (b : Bool) : Inv (setHash v b s) :=
  ⟨h.engine, h.cfg, h.err, h.rsp, h.draw⟩

theorem inv_setCfg {s : State} (h : Inv s) {bits : BitVec 7} (hbits : legalBits bits = true) (max : Word) :
    Inv (setCfg bits max s) :=
  ⟨h.engine, by simpa [CfgInv, legalBits] using hbits, h.err, h.rsp, h.draw⟩

theorem inv_setEngine {s : State} (h : Inv s) {e : Engine} (he : EngineInv e) (hs : e.seeded = true) :
    Inv (setEngine e s) :=
  ⟨he, h.cfg, h.err, h.rsp, fun hb => by
    obtain ⟨hrsp, -, hdraw⟩ := h.draw hb
    exact ⟨hrsp, hs, hdraw⟩⟩

theorem inv_setDraw {s : State} (h : Inv s) {d : DrawRegs} (hd : DrawInv (setDraw d s)) : Inv (setDraw d s) :=
  ⟨h.engine, h.cfg, h.err, h.rsp, hd⟩

/-- A command ends on a block that is idle then, and a fault has data 0. -/
theorem inv_respond {s : State} (h : Inv s) (hb : s.draw.busy = false) {st : Status} {d : Word} (hd : st = .ok ∨ d = 0) :
    Inv (respond st d s) :=
  ⟨h.engine, h.cfg, errInv_recordError h.err st,
    fun _ => ⟨statusCode st, d, rfl, rfl, statusCode_le st, fun hne =>
      hd.resolve_left fun hok => hne ((statusCode_eq_zero_iff st).2 hok)⟩, drawInv_of_idle hb⟩

theorem inv_raise {s : State} (h : Inv s) (hb : s.draw.busy = false) (st : Status) : Inv (raise st s) :=
  inv_respond h hb (.inr rfl)

theorem inv_takeResponse {s : State} (h : Inv s) : Inv (setRspValid false s) :=
  ⟨h.engine, h.cfg, h.err, nofun, fun hb => by
    obtain ⟨-, hdraw⟩ := h.draw hb
    exact ⟨rfl, hdraw⟩⟩

theorem inv_resetBlock (s : State) : Inv (resetBlock s) :=
  ⟨reset_engineInv, reset_cfgInv, ⟨fun _ => rfl, nofun⟩, nofun, nofun⟩

/-! ### What commands keep -/

/-- A word taken from a sound seeded engine leaves it sound. -/
theorem inv_setEngine_nextWord {s : State} (h : Inv s) (hs : s.engine.seeded = true) {w : Word} {e : Engine}
    (hrun : nextWord s.engine = .ok (w, e)) : Inv (setEngine e s) := by
  obtain ⟨v, hv, -⟩ := h.engine.seeded hs
  obtain ⟨_, _, hcall⟩ := nextWord_completes h.engine hs hv
  cases hrun.symm.trans hcall.run
  exact inv_setEngine h hcall.inv hcall.seeded

/-- START holds the range exactly: it is at most 2^32, and D_RANGE has 33 bits. -/
theorem inv_drawStart {s : State} (h : Inv s) (hv : s.rsp.valid = false) (hs : s.engine.seeded = true)
    {low high : BitVec 32} (hle : low.toNat ≤ high.toNat) (hr : 1 < drawRange low high) :
    Inv (drawStart (drawRange low high) low s) := by
  have hsum : low.toNat + drawRange low high ≤ 2 ^ 32 := by
    unfold drawRange
    omega
  have hexact : (BitVec.ofNat 33 (drawRange low high)).toNat = drawRange low high := by
    rw [BitVec.toNat_ofNat]
    exact Nat.mod_eq_of_lt (by omega)
  exact inv_setDraw h fun _ => ⟨hv, hs, BitVec.ofNat 33 (drawRange low high), low, 0, rfl, rfl, rfl, by omega, by omega,
    fun hne => absurd rfl hne⟩

/-- A command run on an idle sound block leaves it sound. -/
theorem exec_keeps_inv {i : Instr} {s t : State} (h : Inv s) (hb : s.draw.busy = false) (hv : s.rsp.valid = false)
    (hexec : exec i s = .next t) : Inv t := by
  cases i with
  | hclr =>
    cases hexec
    exact inv_respond (inv_setHash h 0 false) hb (.inl rfl)
  | hbyte b =>
    cases hexec
    exact inv_respond (inv_setHash h (hashByte thisHardware b s.hash).value _) hb (.inl rfl)
  | seed _ | seedh =>
    cases hexec
    exact inv_respond (inv_setEngine h (initEngine_inv _) rfl) hb (.inl rfl)
  | next =>
    rcases exec_next_cases hexec with ⟨hs, w, e, hw, rfl⟩ | ⟨-, rfl⟩
    · exact inv_respond (inv_setEngine_nextWord h hs hw) hb (.inl rfl)
    · exact inv_raise h hb .notSeeded
  | cfgw bits max =>
    rcases exec_cfgw_cases hexec with ⟨hbits, rfl⟩ | ⟨-, rfl⟩
    · exact inv_respond (inv_setCfg h hbits max) hb (.inl rfl)
    · exact inv_raise h hb .configError
  | draw low high =>
    rcases exec_draw_cases hexec with ⟨-, rfl⟩ | ⟨-, -, rfl⟩ | ⟨-, -, -, rfl⟩ | ⟨hs, hle, hr, rfl⟩
    · exact inv_raise h hb .notSeeded
    · exact inv_raise h hb .invalidRange
    · exact inv_respond h hb (.inl rfl)
    · exact inv_drawStart h hv hs hle hr
  | rdreg reg =>
    rcases exec_rdreg_cases hexec with ⟨-, -, -, rfl⟩ | ⟨-, -, rfl⟩ | ⟨-, rfl⟩
    · exact inv_respond h hb (.inl rfl)
    · exact inv_raise h hb .notSeeded
    · exact inv_raise h hb .illegalCmd

theorem runPacket_keeps_inv {p : Packet} {s t : State} (h : Inv s) (hb : s.draw.busy = false) (hv : s.rsp.valid = false)
    (hrun : runPacket p s = .next t) : Inv t := by
  rcases runPacket_next_cases hrun with ⟨i, -, hexec⟩ | ⟨e, -, rfl⟩
  · exact exec_keeps_inv h hb hv hexec
  · exact inv_raise h hb .illegalCmd

/-! ### What micro-steps keep (42_range_sampler.md R164 to R171) -/

section
variable {s : State} (h : Inv s) (hb : s.draw.busy = true)
include h hb

theorem seeded_of_busy : s.engine.seeded = true := by
  obtain ⟨-, hs, -⟩ := h.draw hb
  exact hs

theorem used_of_busy : s.draw.used = some (readUsed s) := by
  obtain ⟨-, -, r, low, n, -, -, hn, -⟩ := h.draw hb
  rw [readUsed, hn, Option.getD_some]

theorem readRange_le_of_busy : (readRange s).toNat ≤ 2 ^ 32 := by
  obtain ⟨-, -, r, low, n, hr, -, -, -, hsum, -⟩ := h.draw hb
  rw [readRange, hr, Option.getD_some]
  omega

/-- Past ATTEMPT both accumulators hold what is read of them. -/
theorem accumulators_of_busy (hm : s.draw.micro ≠ .attempt) :
    s.draw.accV = some (readAccV s) ∧ s.draw.accD = some (readAccD s) ∧ AccInv (readAccV s) (readAccD s) := by
  obtain ⟨-, -, r, low, n, -, -, -, -, -, hacc⟩ := h.draw hb
  obtain ⟨v, d, hv, hd, hle, -⟩ := hacc hm
  simp only [readAccV, readAccD, hv, hd, Option.getD_some]
  exact ⟨trivial, trivial, hle⟩

/-- A DRAW that goes on to `micro` keeps its range, and owes what holds of the accumulators there. -/
theorem inv_drawGoesOn {accV accD : Option Acc} {used : Option Nat} {micro : MicroStep} {n : Nat} (hn : used = some n)
    (hacc : micro ≠ .attempt → ∃ v d, accV = some v ∧ accD = some d ∧ AccInv v d ∧
      (micro = .eval → (readRange s).toNat - 1 ≤ d.toNat)) :
    Inv (setDraw { s.draw with accV := accV, accD := accD, used := used, micro := micro } s) := by
  obtain ⟨hrsp, hs, r, low, -, hr, hlow, -, h2, hsum, -⟩ := h.draw hb
  rw [readRange, hr] at hacc
  exact inv_setDraw h fun _ => ⟨hrsp, hs, r, low, n, hr, hlow, hn, h2, hsum, hacc⟩

theorem inv_drawAttempt : Inv (drawAttempt s) :=
  inv_drawGoesOn h hb (used_of_busy h hb) fun _ => ⟨0, 0, rfl, rfl, accInv_zero, nofun⟩

/-- TEST shifts while ACC_D is below D_RANGE - 1, so below 2^32, and goes to EVAL otherwise. -/
theorem inv_drawTest (hm : s.draw.micro = .test) : Inv (drawTest s) := by
  obtain ⟨hv, hd, hle⟩ := accumulators_of_busy h hb (by simp [hm])
  have hrange := readRange_le_of_busy h hb
  obtain ⟨-, hbits⟩ := h.cfg
  unfold drawTest
  split
  · exact inv_drawGoesOn h hb (used_of_busy h hb) fun _ => ⟨_, _, rfl, rfl, hle.shiftLeft hbits (by omega), nofun⟩
  · next hge =>
    exact inv_drawGoesOn h hb (used_of_busy h hb) fun _ => ⟨_, _, hv, hd, hle, fun _ => Nat.le_of_not_lt hge⟩

theorem inv_drawTake (hm : s.draw.micro = .fetch) (raw : Word) : Inv (drawTake raw s) := by
  obtain ⟨hv, hd, hle⟩ := accumulators_of_busy h hb (by simp [hm])
  unfold drawTake
  split
  · exact inv_drawGoesOn h hb rfl fun _ => ⟨_, _, hv, hd, hle, nofun⟩
  · next hraw => exact inv_drawGoesOn h hb rfl fun _ => ⟨_, _, rfl, rfl, hle.or (Nat.le_of_not_lt hraw), nofun⟩

omit hb in
/-- EXHAUST and FINISH end the DRAW before they answer. -/
theorem inv_drawEnds : Inv (setDraw { s.draw with busy := false } s) := inv_setDraw h (drawInv_of_idle rfl)

theorem inv_drawEval : Inv (drawEval s) := by
  rcases drawEval_cases s with ⟨-, heval⟩ | ⟨-, heval⟩ <;> rw [heval]
  · exact inv_respond (inv_drawEnds h) rfl (.inl rfl)
  · exact inv_drawGoesOn h hb (used_of_busy h hb) fun hne => absurd rfl hne

/-- A micro-step of a sound busy block leaves it sound, under any DRAW_WORD_CAP. -/
theorem microStep_keeps_inv {p : Config.Params} {t : State} (hmicro : microStep p s = .next t) : Inv t := by
  rcases microStep_next_cases hmicro with ⟨-, rfl⟩ | ⟨hm, rfl⟩ | ⟨-, -, rfl⟩ | ⟨hm, -, raw, e, hw, rfl⟩ | ⟨-, rfl⟩
  · exact inv_drawAttempt h hb
  · exact inv_drawTest h hb hm
  · exact inv_raise (inv_drawEnds h) rfl .samplingExhausted
  · exact inv_drawTake (inv_setEngine_nextWord h (seeded_of_busy h hb) hw) hb hm raw
  · exact inv_drawEval h hb

end

/-! ### What a step keeps -/

theorem blockMove_keeps_inv {s t : State} (h : Inv s) (hmove : blockMove s = .next t) : Inv t := by
  rcases blockMove_next_cases hmove with ⟨-, rfl⟩ | ⟨-, -, -, rfl⟩ | ⟨-, hb, hmicro⟩ | ⟨-, -, -, rfl⟩ |
    ⟨-, hready, p, -, hrun⟩ | ⟨-, -, -, rfl⟩
  · exact inv_resetBlock s
  · exact inv_takeResponse h
  · exact microStep_keeps_inv h hb hmicro
  · exact h
  · obtain ⟨hb, hv⟩ := (cmdReady_iff s).1 hready
    exact runPacket_keeps_inv (inv_accept h) hb hv hrun
  · exact h

/-- Settles O53, through the moves a block can make. -/
theorem stepKeepsTheInvariant : Obligations.StepKeepsTheInvariant :=
  fun _ _ h hstep => blockMove_keeps_inv (inv_hostMove h) hstep

/-! ### A step from a sound state does not stop (41_twister.md R140, 60_exceptions.md R209) -/

/-- The engine of a sound state answers once it is seeded. -/
theorem exists_nextWord {e : Engine} (h : EngineInv e) (hs : e.seeded = true) : ∃ w e', nextWord e = .ok (w, e') := by
  obtain ⟨v, hv, -⟩ := h.seeded hs
  obtain ⟨w, e', hcall⟩ := nextWord_completes h hs hv
  exact ⟨w, e', hcall.run⟩

/-- Only NEXT and RDREG read the engine: they find it unseeded, or every element and IDX written. -/
theorem exec_completes {s : State} (h : Inv s) (i : Instr) : ∃ t, exec i s = .next t := by
  cases i with
  | hclr | hbyte _ | seed _ | seedh => exact ⟨_, rfl⟩
  | next =>
    change ∃ t, execNext s = .next t
    unfold execNext
    split
    · next hs =>
      obtain ⟨w, e, hrun⟩ := exists_nextWord h.engine hs
      rw [hrun]
      exact ⟨_, rfl⟩
    · exact ⟨_, rfl⟩
  | cfgw bits max =>
    change ∃ t, execCfgw bits max s = .next t
    unfold execCfgw
    split <;> exact ⟨_, rfl⟩
  | draw low high =>
    change ∃ t, execDraw low high s = .next t
    unfold execDraw
    split_ifs <;> exact ⟨_, rfl⟩
  | rdreg reg =>
    change ∃ t, execRdreg reg s = .next t
    unfold execRdreg
    split
    case h_3 =>
      split
      · next hs =>
        obtain ⟨v, hv, -⟩ := h.engine.seeded hs
        rw [hv]
        exact ⟨_, rfl⟩
      · exact ⟨_, rfl⟩
    all_goals exact ⟨_, rfl⟩

theorem runPacket_completes {s : State} (h : Inv s) (p : Packet) : ∃ t, runPacket p s = .next t := by
  unfold runPacket
  split
  · exact exec_completes h _
  · exact ⟨_, rfl⟩

theorem microStep_completes {s : State} (h : Inv s) (hb : s.draw.busy = true) (p : Config.Params) :
    ∃ t, microStep p s = .next t := by
  unfold microStep
  split
  case h_3 =>
    obtain ⟨w, e, hrun⟩ := exists_nextWord h.engine (seeded_of_busy h hb)
    rw [drawFetch, hrun]
    split <;> exact ⟨_, rfl⟩
  all_goals exact ⟨_, rfl⟩

theorem blockMove_completes {s : State} (h : Inv s) : ∃ t, blockMove s = .next t := by
  unfold blockMove
  split_ifs with _ _ hb
  · exact ⟨_, rfl⟩
  · exact ⟨_, rfl⟩
  · exact microStep_completes h hb thisHardware
  · exact ⟨_, rfl⟩
  · split
    · exact runPacket_completes (inv_accept h) _
    · exact ⟨_, rfl⟩

/-- Settles O55, through the block's moves: only a micro-step and a packet could stop. -/
theorem soundStateAlwaysSteps : Obligations.SoundStateAlwaysSteps :=
  fun _ h => blockMove_completes (inv_hostMove h)

end Sys2Proof
end

section
/-! PROOFS. The statements of 42_range_sampler.md. First each micro-step's rule over the registers' values;
then what a run of micro-steps does under a host that never resets the block; then the accumulators, the result, and the
DRAW as a loop. -/

namespace Sys2Proof

open Machine

/-! ### CFGW, and DRAW up to START (42_range_sampler.md R160, R161, R163, R173) -/

theorem legalBits_iff {bits : BitVec 7} : legalBits bits = true ↔ 1 ≤ bits.toNat ∧ bits.toNat ≤ 64 := by
  simp [legalBits]

/-- Settles O38: a legal bit count meets CFGW's one check. -/
theorem cfgwWritesTheConfiguration : Obligations.CfgwWritesTheConfiguration :=
  fun _ _ _ h1 h64 => if_pos (legalBits_iff.2 ⟨h1, h64⟩)

/-- An unseeded DRAW faults before it looks at its bounds (60_exceptions.md R207). -/
theorem exec_draw_of_unseeded {s : State} (hs : s.engine.seeded = false) (low high : BitVec 32) :
    exec (.draw low high) s = .next (raise .notSeeded s) :=
  if_neg (by simp [hs])

/-- A seeded DRAW with bounds in order answers `low` on a range of 1, and else begins. -/
theorem exec_draw_of_le {s : State} (hs : s.engine.seeded = true) {low high : BitVec 32} (hle : low.toNat ≤ high.toNat) :
    exec (.draw low high) s =
      if drawRange low high ≤ 1 then .next (respond .ok (low.setWidth 64) s)
      else .next (drawStart (drawRange low high) low s) :=
  (if_pos hs).trans (if_neg (Nat.not_lt.2 hle))

/-- Settles O39: the range of equal bounds is 1. -/
theorem degenerateDrawConsumesNoWord : Obligations.DegenerateDrawConsumesNoWord := by
  intro s low
  have hrange : drawRange low low ≤ 1 := by simp [drawRange]
  exact ⟨fun hs => (exec_draw_of_le hs le_rfl).trans (if_pos hrange), fun hs => exec_draw_of_unseeded hs low low⟩

/-- Settles O40: the range is at most 2^32, which the 33 bits of D_RANGE hold. -/
theorem drawStartsWithTheExactRange : Obligations.DrawStartsWithTheExactRange := by
  intro s low high hs hlt
  have hmany : ¬ drawRange low high ≤ 1 := by
    unfold drawRange
    omega
  refine ⟨BitVec.ofNat 33 (drawRange low high), ?_, (exec_draw_of_le hs hlt.le).trans (if_neg hmany)⟩
  rw [BitVec.toNat_ofNat, drawRange]
  exact Nat.mod_eq_of_lt (by omega)

/-! ### The rules of the micro-steps (42_range_sampler.md R164 to R171)

Each rule is stated for a state whose registers hold the values it reads. -/

/-- The block's move is the next micro-step of a DRAW in progress. -/
theorem step_of_blockMovesIn {s h : State} (hmove : BlockMovesIn s h) (hb : h.draw.busy = true) :
    step s = microStep thisHardware h := by
  obtain ⟨rfl, hrst, htaken⟩ := hmove
  exact blockMove_of_busy hrst htaken hb

section
variable {p : Config.Params} {s : State} {v d : Acc} {r : BitVec 33} {low : BitVec 32} {n : Nat} {raw : Word} {e : Engine}

theorem readAccV_of_some (hv : s.draw.accV = some v) : readAccV s = v := by rw [readAccV, hv, Option.getD_some]
theorem readAccD_of_some (hd : s.draw.accD = some d) : readAccD s = d := by rw [readAccD, hd, Option.getD_some]
theorem readRange_of_some (hr : s.draw.range = some r) : readRange s = r := by rw [readRange, hr, Option.getD_some]
theorem readLow_of_some (hl : s.draw.low = some low) : readLow s = low := by rw [readLow, hl, Option.getD_some]
theorem readUsed_of_some (hn : s.draw.used = some n) : readUsed s = n := by rw [readUsed, hn, Option.getD_some]

theorem microStep_attempt (hm : s.draw.micro = .attempt) :
    microStep p s = .next { s with draw := { s.draw with accV := some 0, accD := some 0, micro := .test } } := by
  rw [microStep, hm]
  rfl

theorem microStep_test_shifts (hm : s.draw.micro = .test) (hv : s.draw.accV = some v) (hd : s.draw.accD = some d)
    (hr : s.draw.range = some r) (hlt : d.toNat < r.toNat - 1) :
    microStep p s = .next { s with draw := { s.draw with accV := some (v <<< s.cfg.bits.toNat)
                                                         accD := some (d <<< s.cfg.bits.toNat), micro := .fetch } } := by
  simp only [microStep, hm, drawTest, readAccV_of_some hv, readAccD_of_some hd, readRange_of_some hr, if_pos hlt]
  rfl

theorem microStep_test_evaluates (hm : s.draw.micro = .test) (hd : s.draw.accD = some d) (hr : s.draw.range = some r)
    (hge : r.toNat - 1 ≤ d.toNat) : microStep p s = .next { s with draw := { s.draw with micro := .eval } } := by
  simp only [microStep, hm, drawTest, readAccD_of_some hd, readRange_of_some hr, if_neg (Nat.not_lt.2 hge)]
  rfl

theorem microStep_of_fetch (hm : s.draw.micro = .fetch) : microStep p s = drawFetch p s := by rw [microStep, hm]

/-- Below DRAW_WORD_CAP, FETCH takes the engine's next word. -/
theorem microStep_fetch (hm : s.draw.micro = .fetch) (hcap : p.drawWordCap ≠ some (readUsed s))
    (hrun : nextWord s.engine = .ok (raw, e)) : microStep p s = .next (drawTake raw (setEngine e s)) := by
  rw [microStep_of_fetch hm, drawFetch, if_neg hcap, hrun]

/-- This hardware has no DRAW_WORD_CAP. -/
theorem thisHardware_uncapped (n : Nat) : thisHardware.drawWordCap ≠ some n := nofun

theorem drawTake_of_lt (hlt : s.cfg.max.toNat < raw.toNat) :
    drawTake raw s = { s with draw := { s.draw with used := some (readUsed s + 1), micro := .fetch } } :=
  if_pos hlt

theorem drawTake_of_le (hle : raw.toNat ≤ s.cfg.max.toNat) :
    drawTake raw s = { s with draw := { s.draw with used := some (readUsed s + 1)
                                                    accV := some (readAccV s ||| raw.setWidth 96)
                                                    accD := some (readAccD s ||| s.cfg.max.setWidth 96)
                                                    micro := .test } } :=
  if_neg (Nat.not_lt.2 hle)

theorem microStep_fetch_discards (hm : s.draw.micro = .fetch) (hn : s.draw.used = some n)
    (hrun : nextWord s.engine = .ok (raw, e)) (hlt : s.cfg.max.toNat < raw.toNat) :
    microStep thisHardware s = .next { s with engine := e, draw := { s.draw with used := some (n + 1) } } := by
  rw [microStep_fetch hm (thisHardware_uncapped _) hrun, drawTake_of_lt (s := setEngine e s) hlt,
    readUsed_of_some (s := setEngine e s) hn, ← hm]
  rfl

theorem microStep_fetch_accepts (hm : s.draw.micro = .fetch) (hv : s.draw.accV = some v) (hd : s.draw.accD = some d)
    (hn : s.draw.used = some n) (hrun : nextWord s.engine = .ok (raw, e)) (hle : raw.toNat ≤ s.cfg.max.toNat) :
    microStep thisHardware s = .next { s with
      engine := e
      draw := { s.draw with used := some (n + 1), accV := some (v ||| raw.setWidth 96)
                            accD := some (d ||| s.cfg.max.setWidth 96), micro := .test } } := by
  rw [microStep_fetch hm (thisHardware_uncapped _) hrun, drawTake_of_le (s := setEngine e s) hle,
    readUsed_of_some (s := setEngine e s) hn, readAccV_of_some (s := setEngine e s) hv,
    readAccD_of_some (s := setEngine e s) hd]
  rfl

/-- At DRAW_WORD_CAP, FETCH goes to EXHAUST. -/
theorem microStep_fetch_exhausts (hm : s.draw.micro = .fetch) (hn : s.draw.used = some n)
    (hcap : p.drawWordCap = some n) :
    microStep p s = .next (faulted 5 { s with draw := { s.draw with busy := false } }) := by
  rw [microStep_of_fetch hm, drawFetch, readUsed_of_some hn, if_pos hcap]
  rfl

theorem microStep_eval (hm : s.draw.micro = .eval) (hv : s.draw.accV = some v) (hd : s.draw.accD = some d)
    (hr : s.draw.range = some r) (hl : s.draw.low = some low) :
    microStep p s = .next (if drawAccepts v.toNat d.toNat r.toNat then
      drawFinish (drawResult v.toNat r.toNat low) s else { s with draw := { s.draw with micro := .attempt } }) := by
  simp only [microStep, hm, drawEval, readAccV_of_some hv, readAccD_of_some hd, readRange_of_some hr,
    readLow_of_some hl]
  rfl

end

theorem drawAccepts_iff {v d range : Nat} :
    drawAccepts v d range = true ↔ v / range < d / range ∨ (d % range = range - 1 ∧ d >>> 32 = 0) := by
  simp [drawAccepts]

/-- Settles O41: the rules of ATTEMPT and TEST. -/
theorem attemptAndTestMicroSteps : Obligations.AttemptAndTestMicroSteps := by
  refine ⟨fun s h hmove hb hm => ?_, fun s h v d r hmove hb hm hv hd hr => ⟨fun hlt => ?_, fun hge => ?_⟩⟩ <;>
    rw [step_of_blockMovesIn hmove hb]
  · exact microStep_attempt hm
  · exact microStep_test_shifts hm hv hd hr hlt
  · exact microStep_test_evaluates hm hd hr hge

/-- Settles O42: the two rules of FETCH. -/
theorem fetchDrawsOneWord : Obligations.FetchDrawsOneWord := by
  intro s h v d used raw e hmove hb hm hv hd hn hrun
  rw [step_of_blockMovesIn hmove hb]
  exact ⟨microStep_fetch_discards hm hn hrun, microStep_fetch_accepts hm hv hd hn hrun⟩

/-- Settles O43: the two clauses are the acceptance test and its negation. -/
theorem evalFinishesOrRestarts : Obligations.EvalFinishesOrRestarts := by
  intro s h v d r low hmove hb hm hv hd hr hl
  rw [step_of_blockMovesIn hmove hb, microStep_eval hm hv hd hr hl]
  refine ⟨fun haccept => ?_, fun hquot hedge => ?_⟩
  · rw [if_pos (drawAccepts_iff.2 haccept)]
    rfl
  · have hreject : ¬ drawAccepts v.toNat d.toNat r.toNat = true := fun haccept => by
      rcases drawAccepts_iff.1 haccept with hlt | ⟨hmod, hshift⟩
      · exact Nat.not_lt.2 hquot hlt
      · exact hedge.elim (· hmod) (· hshift)
    rw [if_neg hreject]

/-- Settles O44: the rule of EXHAUST. -/
theorem wordCapEndsTheDraw : Obligations.WordCapEndsTheDraw :=
  ⟨fun _ _ _ hcap hm hn => microStep_fetch_exhausts hm hn hcap, rfl⟩

/-- Settles O52, micro-step by micro-step. -/
theorem microStepFrame : Obligations.MicroStepFrame := by
  intro p s t h
  rcases microStep_next_cases h with ⟨-, rfl⟩ | ⟨-, rfl⟩ | ⟨-, -, rfl⟩ | ⟨hm, -, raw, e, hrun, rfl⟩ | ⟨-, rfl⟩
  · exact ⟨rfl, rfl, rfl, rfl, rfl, rfl, rfl, fun _ => rfl⟩
  · unfold drawTest
    split <;> exact ⟨rfl, rfl, rfl, rfl, rfl, rfl, rfl, fun _ => rfl⟩
  · exact ⟨rfl, rfl, rfl, rfl, rfl, rfl, rfl, fun _ => rfl⟩
  · have hseeded := nextWord_seeded hrun
    unfold drawTake
    split <;> exact ⟨rfl, rfl, rfl, rfl, hseeded, rfl, rfl, fun hne => absurd hm hne⟩
  · rcases drawEval_cases s with ⟨-, heval⟩ | ⟨-, heval⟩ <;> rw [heval] <;>
      exact ⟨rfl, rfl, rfl, rfl, rfl, rfl, rfl, fun _ => rfl⟩

/-! ### What a DRAW in progress does over its steps

A DRAW runs one micro-step per step of the machine, whatever the host does short of a reset. -/

theorem noReset_hostMove {s : State} (h : NoReset s.host) : NoReset (hostMove s).host := by
  obtain ⟨hrst, hmoves⟩ := h
  unfold hostMove
  split
  · exact ⟨hrst, hmoves⟩
  · next hsched => exact ⟨hrst, fun m hm => hmoves m (hsched ▸ List.mem_cons_of_mem _ hm)⟩
  · next hsched =>
    exact ⟨hmoves _ (hsched ▸ List.mem_cons_self) _ rfl, fun m hm => hmoves m (hsched ▸ List.mem_cons_of_mem _ hm)⟩

theorem drawTest_setHost (h : HostPort) (s : State) : drawTest (setHost h s) = setHost h (drawTest s) := by
  unfold drawTest
  rw [apply_ite (setHost h)]
  rfl

theorem drawTake_setHost (raw : Word) (h : HostPort) (s : State) :
    drawTake raw (setHost h s) = setHost h (drawTake raw s) := by
  unfold drawTake
  rw [apply_ite (setHost h)]
  rfl

theorem drawEval_setHost (h : HostPort) (s : State) : drawEval (setHost h s) = setHost h (drawEval s) := by
  unfold drawEval
  rw [apply_ite (setHost h)]
  rfl

/-- A micro-step neither reads nor moves the host's port. -/
theorem microStep_setHost {p : Config.Params} {s t : State} (h : HostPort) (hmicro : microStep p s = .next t) :
    microStep p (setHost h s) = .next (setHost h t) := by
  rcases microStep_next_cases hmicro with ⟨hm, rfl⟩ | ⟨hm, rfl⟩ | ⟨hm, hcap, rfl⟩ | ⟨hm, hcap, raw, e, hrun, rfl⟩ |
    ⟨hm, rfl⟩
  · exact microStep_attempt (s := setHost h s) hm
  · simp only [microStep, setHost_draw, hm, drawTest_setHost]
  · exact (microStep_of_fetch (s := setHost h s) hm).trans (if_pos hcap)
  · exact (microStep_fetch (s := setHost h s) hm hcap hrun).trans (congrArg _ (drawTake_setHost raw h (setEngine e s)))
  · simp only [microStep, setHost_draw, hm, drawEval_setHost]

theorem run_succ_of_step {M : Host.Core} {s t : M.State} (hstep : M.step s = .next t) (n : Nat) :
    M.run (n + 1) s = M.run n t := by
  rw [Host.Core.run, hstep]

/-- With no reset to come, the next micro-step of a DRAW in progress is the next step of the machine. -/
theorem step_of_microStep {s u : State} {h : HostPort} (hn : NoReset h) (hb : s.draw.busy = true)
    (hv : s.rsp.valid = false) (hmicro : microStep thisHardware s = .next u) :
    ∃ h', NoReset h' ∧ step (setHost h s) = .next (setHost h' u) := by
  have hn' : NoReset (hostMove (setHost h s)).host := noReset_hostMove hn
  have hmove : hostMove (setHost h s) = setHost (hostMove (setHost h s)).host s := hostMove_eq (setHost h s)
  refine ⟨_, hn', ?_⟩
  rw [step_of_blockMovesIn ⟨rfl, hn'.1, by simp [hv]⟩ (by simp [hb])]
  exact (congrArg _ hmove).trans (microStep_setHost _ hmicro)

/-- `n` steps take `s` to `t`, but for the host's port, under every host that asserts no reset. -/
def RunsTo (n : Nat) (s t : State) : Prop :=
  ∀ h, NoReset h → ∃ h', NoReset h' ∧ Host.Core.run core n (setHost h s) = .next (setHost h' t)

theorem runsTo_zero (s : State) : RunsTo 0 s s := fun h hn => ⟨h, hn, rfl⟩

theorem RunsTo.cons {s u t : State} {n : Nat} (hb : s.draw.busy = true) (hv : s.rsp.valid = false)
    (hmicro : microStep thisHardware s = .next u) (hrest : RunsTo n u t) : RunsTo (n + 1) s t := by
  intro h hn
  obtain ⟨h1, hn1, hstep⟩ := step_of_microStep hn hb hv hmicro
  obtain ⟨h2, hn2, hrun⟩ := hrest h1 hn1
  exact ⟨h2, hn2, (run_succ_of_step (M := core) hstep n).trans hrun⟩

/-! ### A DRAW under CFG_MAX = 0 (42_range_sampler.md R176) -/

/-- A sound DRAW in progress whose CFG_MAX and ACC_D are 0, and which does not stand at EVAL. -/
structure ZeroDraw (s : State) : Prop where
  inv : Inv s
  busy : s.draw.busy = true
  max : s.cfg.max = 0
  micro : s.draw.micro ≠ .eval
  accD : s.draw.micro ≠ .attempt → s.draw.accD = some 0

theorem ZeroDraw.rsp_valid {s : State} (h : ZeroDraw s) : s.rsp.valid = false := by
  obtain ⟨hv, -⟩ := h.inv.draw h.busy
  exact hv

/-- TEST shifts a zero and FETCH ORs in a zero, so ACC_D stays below D_RANGE − 1, which is at least 1. -/
theorem ZeroDraw.microStep {s : State} (h : ZeroDraw s) : ∃ t, microStep thisHardware s = .next t ∧ ZeroDraw t := by
  obtain ⟨t, hmicro⟩ := microStep_completes h.inv h.busy thisHardware
  have hinv := microStep_keeps_inv h.inv h.busy hmicro
  refine ⟨t, hmicro, ?_⟩
  rcases microStep_next_cases hmicro with ⟨-, rfl⟩ | ⟨hm, rfl⟩ | ⟨-, hcap, -⟩ | ⟨hm, -, raw, e, hrun, rfl⟩ | ⟨hm, -⟩
  · exact ⟨hinv, h.busy, h.max, nofun, fun _ => rfl⟩
  · obtain ⟨-, -, r, -, -, hr, -, -, h2, -⟩ := h.inv.draw h.busy
    have hd : readAccD s = 0 := readAccD_of_some (h.accD (by simp [hm]))
    have hlt : (readAccD s).toNat < (readRange s).toNat - 1 := by
      rw [hd, readRange_of_some hr]
      exact Nat.sub_pos_of_lt h2
    rw [drawTest, if_pos hlt, hd] at hinv ⊢
    exact ⟨hinv, h.busy, h.max, nofun, fun _ => by simp⟩
  · exact absurd hcap (thisHardware_uncapped _)
  · have hd := h.accD (by simp [hm])
    rcases Nat.lt_or_ge s.cfg.max.toNat raw.toNat with hlt | hle
    · rw [drawTake_of_lt (s := setEngine e s) hlt] at hinv ⊢
      exact ⟨hinv, h.busy, h.max, nofun, fun _ => hd⟩
    · rw [drawTake_of_le (s := setEngine e s) hle, readAccD_of_some (s := setEngine e s) hd, setEngine_cfg,
        h.max] at hinv ⊢
      exact ⟨hinv, h.busy, h.max, nofun, fun _ => rfl⟩
  · exact absurd hm h.micro

theorem ZeroDraw.runsTo (n : Nat) : ∀ {s : State}, ZeroDraw s → ∃ t, RunsTo n s t ∧ ZeroDraw t := by
  induction n with
  | zero => exact fun {s} h => ⟨s, runsTo_zero s, h⟩
  | succ n ih =>
    intro s h
    obtain ⟨u, hmicro, hu⟩ := h.microStep
    obtain ⟨t, hrest, ht⟩ := ih hu
    exact ⟨t, .cons h.busy h.rsp_valid hmicro hrest, ht⟩

/-- Settles O48, by the number of steps. -/
theorem zeroCeilingDrawNeverEnds : Obligations.ZeroCeilingDrawNeverEnds := by
  intro s hinv hhost hb hmax hm hacc n
  obtain ⟨t, hruns, ht⟩ := ZeroDraw.runsTo n ⟨hinv, hb, hmax, hm, hacc⟩
  obtain ⟨h', -, hrun⟩ := hruns s.host hhost
  exact ⟨setHost h' t, hrun, ht.busy, ht.rsp_valid⟩

/-! ### The accumulators and the result (42_range_sampler.md R168, R169) -/

/-- TEST shifts only an accumulator below 2^32, by at most 64. -/
theorem toNat_shiftLeft_of_lt {x : Acc} {b : Nat} (hx : x.toNat < 2 ^ 32) (hb : b ≤ 64) :
    (x <<< b).toNat = x.toNat <<< b := by
  rw [BitVec.toNat_shiftLeft, Nat.shiftLeft_eq]
  refine Nat.mod_eq_of_lt ?_
  calc x.toNat * 2 ^ b < 2 ^ 32 * 2 ^ 64 :=
        Nat.mul_lt_mul_of_lt_of_le hx (Nat.pow_le_pow_right (by decide) hb) (by decide)
    _ = 2 ^ 96 := by decide

theorem toNat_or_word (x : Acc) (w : Word) : (x ||| w.setWidth 96).toNat = x.toNat ||| w.toNat := by
  rw [BitVec.toNat_or, BitVec.toNat_setWidth_of_le (by decide)]

theorem inv_of_blockMovesIn {s h : State} (hinv : Inv s) (hmove : BlockMovesIn s h) : Inv h := by
  obtain ⟨rfl, -⟩ := hmove
  exact inv_hostMove hinv

/-- Settles O45: TEST shifts while ACC_D, and with it ACC_V, is below 2^32; an OR needs no bit above 95. -/
theorem accumulatorsLoseNoBit : Obligations.AccumulatorsLoseNoBit := by
  constructor
  · intro s h v d r hinv hmove hb hm hv hd hr hlt
    have hinv := inv_of_blockMovesIn hinv hmove
    obtain ⟨-, -, hacc⟩ := accumulators_of_busy hinv hb (by simp [hm])
    rw [readAccV_of_some hv, readAccD_of_some hd] at hacc
    have hrange := readRange_le_of_busy hinv hb
    rw [readRange_of_some hr] at hrange
    have hd32 : d.toNat < 2 ^ 32 := by omega
    obtain ⟨-, hbits⟩ := hinv.cfg
    refine ⟨_, _, _, (step_of_blockMovesIn hmove hb).trans (microStep_test_shifts hm hv hd hr hlt), rfl, rfl, ?_, ?_⟩
    · rw [toNat_shiftLeft_of_lt (hacc 32 hd32) hbits, Nat.shiftLeft_eq]
    · rw [toNat_shiftLeft_of_lt hd32 hbits, Nat.shiftLeft_eq]
  · intro s h v d raw e hinv hmove hb hm hv hd hrun hle
    have hn := used_of_busy (inv_of_blockMovesIn hinv hmove) hb
    exact ⟨_, _, _, (step_of_blockMovesIn hmove hb).trans (microStep_fetch_accepts hm hv hd hn hrun hle), rfl, rfl,
      toNat_or_word v raw, toNat_or_word d h.cfg.max⟩

/-- A sound DRAW in progress has no response, and its range is 2..2^32 and ends at a 32-bit `high`. -/
theorem bounds_of_busy {s : State} {r : BitVec 33} {low : BitVec 32} (hinv : Inv s) (hb : s.draw.busy = true)
    (hr : s.draw.range = some r) (hl : s.draw.low = some low) :
    s.rsp.valid = false ∧ 2 ≤ r.toNat ∧ low.toNat + r.toNat ≤ 2 ^ 32 := by
  obtain ⟨hv, -, r', low', -, hr', hl', -, h2, hsum, -⟩ := hinv.draw hb
  obtain rfl : r' = r := by simpa [hr'] using hr
  obtain rfl : low' = low := by simpa [hl'] using hl
  exact ⟨hv, h2, hsum⟩

/-- The result fits 32 bits, since the range ends at a 32-bit `high`. -/
theorem toNat_drawResult {range : Nat} {low : BitVec 32} (hpos : 0 < range) (hsum : low.toNat + range ≤ 2 ^ 32)
    (v : Nat) : (drawResult v range low).toNat = v % range + low.toNat := by
  have hmod := Nat.mod_lt v hpos
  rw [drawResult, BitVec.toNat_ofNat]
  exact Nat.mod_eq_of_lt (by omega)

theorem drawFinish_eq (result : BitVec 32) (s : State) :
    drawFinish result s = answered (BitVec.ofNat 64 result.toNat) { s with draw := { s.draw with busy := false } } := by
  rw [BitVec.ofNat_toNat]
  rfl

theorem drawTest_busy (s : State) : (drawTest s).draw.busy = s.draw.busy := by
  unfold drawTest
  split <;> rfl

theorem drawTake_busy (raw : Word) (s : State) : (drawTake raw s).draw.busy = s.draw.busy := by
  unfold drawTake
  split <;> rfl

/-- On this hardware only an accepting EVAL ends a DRAW. -/
theorem microStep_ends {s t : State} (hb : s.draw.busy = true) (hmicro : microStep thisHardware s = .next t)
    (ht : t.draw.busy = false) : t = drawFinish (drawResult (readAccV s).toNat (readRange s).toNat (readLow s)) s := by
  have goesOn (hsame : t.draw.busy = s.draw.busy) : False := by simp [hsame, hb] at ht
  rcases microStep_next_cases hmicro with ⟨-, rfl⟩ | ⟨-, rfl⟩ | ⟨-, hcap, -⟩ | ⟨-, -, raw, e, -, rfl⟩ | ⟨-, rfl⟩
  · exact (goesOn rfl).elim
  · exact (goesOn (drawTest_busy s)).elim
  · exact absurd hcap (thisHardware_uncapped _)
  · exact (goesOn (drawTake_busy raw (setEngine e s))).elim
  · rcases drawEval_cases s with ⟨-, heval⟩ | ⟨-, heval⟩
    · exact heval
    · exact (goesOn (by rw [heval]; rfl)).elim

/-- Settles O46: the result is a remainder below D_RANGE, added to D_LOW. -/
theorem drawResultLiesInItsBounds : Obligations.DrawResultLiesInItsBounds := by
  intro s h t low r hinv hmove hb hl hr hstep ht
  obtain ⟨-, h2, hsum⟩ := bounds_of_busy (inv_of_blockMovesIn hinv hmove) hb hr hl
  have hend := microStep_ends hb ((step_of_blockMovesIn hmove hb).symm.trans hstep) ht
  rw [readRange_of_some hr, readLow_of_some hl] at hend
  subst hend
  refine ⟨_, rfl, ?_⟩
  rw [BitVec.toNat_setWidth_of_le (by decide), toNat_drawResult (by omega) hsum]
  have hmod := Nat.mod_lt (readAccV h).toNat (show 0 < r.toNat by omega)
  omega

/-! ### Attempts of a DRAW in progress -/

/-- `s` with its DRAW gone on: the engine, the micro-step, the accumulators and the count of words are these. -/
def drawAt (s : State) (e : Engine) (m : MicroStep) (v d : Acc) (n : Nat) : State :=
  { s with engine := e, draw := { s.draw with accV := some v, accD := some d, used := some n, micro := m } }

/-- An attempt comes to its first FETCH in two steps, with both accumulators 0. -/
theorem RunsTo.of_attempt {s t : State} {r : BitVec 33} {n m : Nat} (hb : s.draw.busy = true) (hv : s.rsp.valid = false)
    (hr : s.draw.range = some r) (h2 : 2 ≤ r.toNat) (hm : s.draw.micro = .attempt) (hn : s.draw.used = some n)
    (hrest : RunsTo m (drawAt s s.engine .fetch 0 0 n) t) : RunsTo (m + 2) s t := by
  refine .cons hb hv (microStep_attempt hm) (.cons hb hv
    (microStep_test_shifts rfl rfl rfl hr (Nat.sub_pos_of_lt h2)) ?_)
  rw [drawAt, ← hn] at hrest
  simpa using hrest

/-! ### The reference configuration (42_range_sampler.md R172) -/

/-- Under an all-ones CFG_MAX no word is above it. -/
theorem toNat_le_of_max_allOnes {max : Word} (hmax : max = 0xFFFFFFFFFFFFFFFF) (raw : Word) :
    raw.toNat ≤ max.toNat := by
  rw [hmax]
  exact Nat.le_of_lt_succ raw.isLt

/-- With ACC_D all ones the edge test fails, and the quotients compare `raw` with the last full block of the range. -/
theorem drawAccepts_allOnes_iff {raw range : Nat} (hpos : 0 < range) :
    drawAccepts raw (2 ^ 64 - 1) range = true ↔ raw < (2 ^ 64 - 1) / range * range := by
  have hedge : ¬ ((2 ^ 64 - 1) >>> 32 = 0) := by decide
  rw [drawAccepts_iff, Nat.div_lt_iff_lt_mul hpos]
  exact or_iff_left fun h => hedge h.2

/-- EVAL with ACC_D all ones answers exactly for the raw words below the last full block of the range. -/
theorem microStep_eval_allOnes {p : Config.Params} {s : State} {r : BitVec 33} {low : BitVec 32} {raw : Word}
    (hm : s.draw.micro = .eval) (hv : s.draw.accV = some (raw.setWidth 96))
    (hd : s.draw.accD = some 0xFFFFFFFFFFFFFFFF) (hr : s.draw.range = some r) (hl : s.draw.low = some low)
    (hpos : 0 < r.toNat) (hsum : low.toNat + r.toNat ≤ 2 ^ 32) :
    microStep p s = .next (if raw.toNat < (2 ^ 64 - 1) / r.toNat * r.toNat then
      answered (BitVec.ofNat 64 (raw.toNat % r.toNat + low.toNat)) { s with draw := { s.draw with busy := false } }
      else { s with draw := { s.draw with micro := .attempt } }) := by
  rw [microStep_eval hm hv hd hr hl, BitVec.toNat_setWidth_of_le (by decide), drawFinish_eq, toNat_drawResult hpos hsum]
  exact congrArg _ (if_congr (drawAccepts_allOnes_iff hpos) rfl rfl)

/-- One word takes an attempt to EVAL: it sets ACC_D to all ones, at least any D_RANGE − 1. -/
theorem RunsTo.attempt_of_max_allOnes {s : State} {r : BitVec 33} {n : Nat} {raw : Word} {e : Engine}
    (hb : s.draw.busy = true) (hv : s.rsp.valid = false) (hr : s.draw.range = some r) (h2 : 2 ≤ r.toNat)
    (hm : s.draw.micro = .attempt) (hn : s.draw.used = some n) (hmax : s.cfg.max = 0xFFFFFFFFFFFFFFFF)
    (hrun : nextWord s.engine = .ok (raw, e)) :
    RunsTo 4 s (drawAt s e .eval (raw.setWidth 96) 0xFFFFFFFFFFFFFFFF (n + 1)) := by
  have hfetch : microStep thisHardware (drawAt s s.engine .fetch 0 0 n) =
      .next (drawAt s e .test (raw.setWidth 96) 0xFFFFFFFFFFFFFFFF (n + 1)) := by
    rw [microStep_fetch_accepts (s := drawAt s s.engine .fetch 0 0 n) rfl rfl rfl rfl hrun
      (toNat_le_of_max_allOnes hmax raw)]
    simp [drawAt, hmax]
  have hge : r.toNat - 1 ≤ (0xFFFFFFFFFFFFFFFF : Acc).toNat :=
    (Nat.sub_le _ _).trans (r.isLt.le.trans (by decide))
  exact .of_attempt hb hv hr h2 hm hn (.cons hb hv hfetch (.cons hb hv (microStep_test_evaluates rfl rfl hr hge)
    (runsTo_zero _)))

/-- Settles O47, from one attempt's run and the acceptance test with ACC_D all ones. -/
theorem referenceConfigurationAcceptance : Obligations.ReferenceConfigurationAcceptance := by
  refine ⟨?_, ?_, ?_⟩
  · intro s h raw e hmove hb hm hmax hrun
    refine ⟨_, (step_of_blockMovesIn hmove hb).trans (microStep_fetch hm (thisHardware_uncapped _) hrun), ?_⟩
    rw [drawTake_of_le (s := setEngine e h) (toNat_le_of_max_allOnes hmax raw)]
    exact ⟨rfl, rfl⟩
  · intro s r low n raw e hinv hhost hb hm hmax hr hl hn hrun
    obtain ⟨hv, h2, hsum⟩ := bounds_of_busy hinv hb hr hl
    obtain ⟨h4, hn4, hrun4⟩ := RunsTo.attempt_of_max_allOnes hb hv hr h2 hm hn hmax hrun s.host hhost
    obtain ⟨h5, -, hstep⟩ := step_of_microStep (s := drawAt s e .eval (raw.setWidth 96) 0xFFFFFFFFFFFFFFFF (n + 1)) hn4
      hb hv (microStep_eval_allOnes rfl rfl rfl hr hl (by omega) hsum)
    refine ⟨_, _, hrun4, hb, rfl, rfl, rfl, rfl, rfl, hstep, ?_⟩
    split
    · next hlt => exact ⟨rfl, rfl, fun _ => ⟨rfl, rfl⟩, fun hge => absurd hlt (Nat.not_lt.2 hge)⟩
    · next hge => exact ⟨rfl, rfl, fun hlt => absurd hlt hge, fun _ => ⟨hb, rfl, hv⟩⟩
  · intro range raw h2 _ _
    refine ⟨drawAccepts_allOnes_iff (by omega), ?_⟩
    have hdiv := Nat.div_add_mod' (2 ^ 64 - 1) range
    omega

/-! ### DrawLoop (42_range_sampler.md R162, R177) -/

theorem nextWords_succ_ok {k : Nat} {e e' : Engine} {ws : List Word} (h : nextWords (k + 1) e = .ok (ws, e')) :
    ∃ raw e1 rest, nextWord e = .ok (raw, e1) ∧ nextWords k e1 = .ok (rest, e') ∧ ws = raw :: rest := by
  rw [nextWords] at h
  split at h
  · cases h
  · next raw e1 h1 =>
    split at h
    · cases h
    · next rest e2 h2 =>
      cases h
      exact ⟨raw, e1, rest, h1, h2, rfl⟩

/-- As many words are returned as calls are made. -/
theorem nextWords_of_nil {k : Nat} {e e' : Engine} (h : nextWords k e = .ok ([], e')) : k = 0 ∧ e' = e := by
  cases k with
  | zero =>
    cases h
    exact ⟨rfl, rfl⟩
  | succ k =>
    obtain ⟨_, _, _, -, -, hws⟩ := nextWords_succ_ok h
    cases hws

/-- What DrawLoop does with one word: discards it, shifts for the next, answers, or restarts the attempt. -/
theorem drawLoop_cons_cases {bits max range low v d raw : Nat} {raws : List Nat} {out : Nat × List Nat}
    (h : drawLoop bits max range low v d (raw :: raws) = some out) :
    (max < raw ∧ drawLoop bits max range low v d raws = some out) ∨
    (raw ≤ max ∧ d ||| max < range - 1 ∧
      drawLoop bits max range low ((v ||| raw) <<< bits) ((d ||| max) <<< bits) raws = some out) ∨
    (raw ≤ max ∧ range - 1 ≤ d ||| max ∧ drawAccepts (v ||| raw) (d ||| max) range = true ∧
      out = ((v ||| raw) % range + low, raws)) ∨
    (raw ≤ max ∧ range - 1 ≤ d ||| max ∧ drawAccepts (v ||| raw) (d ||| max) range = false ∧
      drawLoop bits max range low 0 0 raws = some out) := by
  rw [drawLoop] at h
  dsimp only at h
  split_ifs at h with hdiscard hshift haccept
  · exact .inl ⟨hdiscard, h⟩
  · exact .inr (.inl ⟨Nat.le_of_not_lt hdiscard, hshift, h⟩)
  · exact .inr (.inr (.inl ⟨Nat.le_of_not_lt hdiscard, Nat.le_of_not_lt hshift, haccept, (Option.some.inj h).symm⟩))
  · exact .inr (.inr (.inr ⟨Nat.le_of_not_lt hdiscard, Nat.le_of_not_lt hshift, by simpa using haccept, h⟩))

/-- From `t` the micro-steps of the DRAW of `s` reach FINISH with result `res`, with the engine at `e` and `n` words
consumed. -/
def Finishes (s : State) (e : Engine) (n res : Nat) (t : State) : Prop :=
  ∃ m v d result, RunsTo m t (drawFinish result (drawAt s e .eval v d n)) ∧ result.toNat = res

theorem Finishes.cons {s t u : State} {e : Engine} {n res : Nat} (hb : t.draw.busy = true) (hv : t.rsp.valid = false)
    (hmicro : microStep thisHardware t = .next u) (h : Finishes s e n res u) : Finishes s e n res t := by
  obtain ⟨m, v, d, result, hruns, hres⟩ := h
  exact ⟨m + 1, v, d, result, .cons hb hv hmicro hruns, hres⟩

theorem Finishes.of_attempt {s t : State} {r : BitVec 33} {e : Engine} {n n' res : Nat} (hb : t.draw.busy = true)
    (hv : t.rsp.valid = false) (hr : t.draw.range = some r) (h2 : 2 ≤ r.toNat) (hm : t.draw.micro = .attempt)
    (hn : t.draw.used = some n) (h : Finishes s e n' res (drawAt t t.engine .fetch 0 0 n)) : Finishes s e n' res t := by
  obtain ⟨m, v, d, result, hruns, hres⟩ := h
  exact ⟨m + 2, v, d, result, .of_attempt hb hv hr h2 hm hn hruns, hres⟩

section
variable {s : State} {r : BitVec 33} {low : BitVec 32} (hinv : Inv s) (hb : s.draw.busy = true)
  (hr : s.draw.range = some r) (hl : s.draw.low = some low)
include hinv hb hr hl

/-- From FETCH, the micro-steps follow DrawLoop word by word: no shift or OR loses a bit. -/
theorem finishes_of_fetch {res : Nat} {e' : Engine} (k : Nat) : ∀ {e : Engine} {ws : List Word} {v d : Acc} (n : Nat),
    AccInv v d → nextWords k e = .ok (ws, e') →
    drawLoop s.cfg.bits.toNat s.cfg.max.toNat r.toNat low.toNat v.toNat d.toNat (ws.map BitVec.toNat) = some (res, []) →
    Finishes s e' (n + k) res (drawAt s e .fetch v d n) := by
  obtain ⟨hv, h2, hsum⟩ := bounds_of_busy hinv hb hr hl
  obtain ⟨-, hbits⟩ := hinv.cfg
  induction k with
  | zero =>
    intro e ws v d n _ hwords hloop
    cases hwords
    cases hloop
  | succ k ih =>
    intro e ws v d n hacc hwords hloop
    obtain ⟨raw, e1, rest, hrun, hrest, rfl⟩ := nextWords_succ_ok hwords
    have hcount : n + (k + 1) = n + 1 + k := by omega
    rw [hcount]
    have take (hle : raw.toNat ≤ s.cfg.max.toNat) : microStep thisHardware (drawAt s e .fetch v d n) =
        .next (drawAt s e1 .test (v ||| raw.setWidth 96) (d ||| s.cfg.max.setWidth 96) (n + 1)) :=
      microStep_fetch_accepts rfl rfl rfl rfl hrun hle
    rw [List.map_cons] at hloop
    rcases drawLoop_cons_cases hloop with ⟨hlt, hloop⟩ | ⟨hle, hshift, hloop⟩ | ⟨hle, heval, haccept, hout⟩ |
      ⟨hle, heval, hreject, hloop⟩
    · exact .cons hb hv (microStep_fetch_discards rfl rfl hrun hlt) (ih (n + 1) hacc hrest hloop)
    · rw [← toNat_or_word] at hshift
      have hacc' := hacc.or hle
      have hd32 : (d ||| s.cfg.max.setWidth 96).toNat < 2 ^ 32 := by omega
      rw [← toNat_or_word, ← toNat_or_word, ← toNat_shiftLeft_of_lt (hacc' 32 hd32) hbits,
        ← toNat_shiftLeft_of_lt hd32 hbits] at hloop
      exact .cons hb hv (take hle) (.cons hb hv (microStep_test_shifts rfl rfl rfl hr hshift)
        (ih (n + 1) (hacc'.shiftLeft hbits hd32) hrest hloop))
    · rw [← toNat_or_word, ← toNat_or_word] at haccept
      rw [← toNat_or_word] at heval
      obtain ⟨hres, hnil⟩ := Prod.mk.inj hout
      obtain ⟨rfl, rfl⟩ := nextWords_of_nil (List.map_eq_nil_iff.1 hnil.symm ▸ hrest)
      refine .cons hb hv (take hle) (.cons hb hv (microStep_test_evaluates rfl rfl hr heval)
        (.cons hb hv (microStep_eval rfl rfl rfl hr hl) ?_))
      rw [if_pos haccept]
      exact ⟨0, _, _, _, runsTo_zero _, by rw [toNat_drawResult (by omega) hsum, toNat_or_word, hres]⟩
    · rw [← toNat_or_word, ← toNat_or_word] at hreject
      rw [← toNat_or_word] at heval
      refine .cons hb hv (take hle) (.cons hb hv (microStep_test_evaluates rfl rfl hr heval)
        (.cons hb hv (microStep_eval rfl rfl rfl hr hl) ?_))
      rw [if_neg (Bool.eq_false_iff.1 hreject)]
      exact .of_attempt hb hv hr h2 rfl rfl (ih (n + 1) accInv_zero hrest hloop)

end

/-- Settles O49: the DRAW's first attempt comes to FETCH, and from there the micro-steps follow DrawLoop. -/
theorem microStepsComputeTheDrawLoop : Obligations.MicroStepsComputeTheDrawLoop := by
  intro s r low k ws e res hinv hhost hb hm hn hr hl hwords hloop
  obtain ⟨hv, h2, -⟩ := bounds_of_busy hinv hb hr hl
  obtain ⟨m, v, d, result, hruns, rfl⟩ := Finishes.of_attempt hb hv hr h2 hm hn
    (finishes_of_fetch hinv hb hr hl k 0 accInv_zero hwords hloop)
  obtain ⟨h', -, hrun⟩ := hruns s.host hhost
  rw [drawFinish_eq, Nat.zero_add] at hrun
  exact ⟨m, _, hrun, rfl, rfl, rfl, rfl, rfl, rfl, rfl⟩

end Sys2Proof
end

section
/-! PROOFS. The statement of 43_register_access.md. Of the five registers only IDX needs the engine seeded, so its read has
a lemma of its own; the other four are read whatever the state. -/

namespace Sys2Proof.Machine

/-- RDREG 2 passes the check of SEEDED and finds IDX written (R191, 60_exceptions.md R201). -/
theorem exec_rdreg_idx {s : State} {v : BitVec 10} (hs : s.engine.seeded = true) (hv : s.engine.idx = some v) :
    exec (.rdreg 2) s = .next (answered (v.setWidth 64) s) := by
  have hname : regName 2 = some .idx := rfl
  change execRdreg 2 s = _
  simp only [execRdreg, hname, hs, hv, if_true, respond_ok]

/-- Settles O50: numbers 0, 1, 3 and 4 name registers that are read without a check, and number 2 names IDX. -/
theorem rdregAnswersTheRegister : Obligations.RdregAnswersTheRegister :=
  fun _ => ⟨rfl, rfl, fun _ => exec_rdreg_idx, rfl, rfl⟩

end Sys2Proof.Machine
end

section
/-! PROOFS. The statements of 60_exceptions.md. First a fault as one state; then the packets and operands that fault, by
name; then, for commands and micro-steps alike, what a response that appears says of the state it appears in. -/

namespace Sys2Proof

open Machine

/-- A status other than OK leaves the state of R206: the response and the error record, and nothing else. -/
theorem raise_eq_faulted {st : Status} (hne : st ≠ .ok) (s : State) : raise st s = faulted (statusCode st) s := by
  rw [raise, respond, recordError_of_ne_ok hne]
  rfl

/-! ### The packets and operands that fault (60_exceptions.md R201 to R204, R219) -/

theorem runPacket_of_decode_error {p : Packet} {e : Illegal} (hd : decode p = .error e) (s : State) :
    runPacket p s = .next (faulted 1 s) := by
  rw [runPacket, hd]
  exact congrArg _ (raise_eq_faulted (st := .illegalCmd) nofun s)

/-- Only the numbers 0..4 name a register (43_register_access.md R190). -/
theorem regName_of_four_lt {reg : BitVec 8} (h : 4 < reg.toNat) : regName reg = none := by
  have hne {k : BitVec 8} (hk : k.toNat ≤ 4) : reg ≠ k := by
    rintro rfl
    exact Nat.not_lt.2 hk h
  unfold regName
  iterate 5 rw [if_neg (hne (by decide))]

/-- Only the number 2 names IDX (43_register_access.md R191). -/
theorem regName_eq_idx {reg : BitVec 8} (h : regName reg = some .idx) : reg = 2 := by
  by_contra hne
  rw [regName, if_neg hne] at h
  split_ifs at h <;> cases h

theorem exec_rdreg_of_no_register {reg : BitVec 8} (h : regName reg = none) (s : State) :
    exec (.rdreg reg) s = .next (faulted 1 s) := by
  change execRdreg reg s = _
  rw [execRdreg, h]
  rfl

/-- Settles O8: the decoder names every packet a row of the table rejects, and ILLEGAL_CMD is what a rejected one runs. -/
theorem illegalCommandsRaiseIllegalCmd : Obligations.IllegalCommandsRaiseIllegalCmd := by
  obtain ⟨hreserved, hunassigned⟩ := rejectedPacketsAreNamed
  exact ⟨fun s p e hrst hready hcmd hd =>
      (blockMove_of_offer hrst hready hcmd).trans (runPacket_of_decode_error hd (accept (hostMove s))),
    fun p hop => ⟨_, hunassigned p hop⟩, fun p r hr hop hc => ⟨_, hreserved r hr p hop hc⟩,
    fun s reg h => exec_rdreg_of_no_register (regName_of_four_lt h) s⟩

/-- Settles O12: with `rst` low, no DRAW, no response and no packet, the block has no move to make. -/
theorem idleBlockKeepsItsState : Obligations.IdleBlockKeepsItsState := by
  rintro s _ rfl hrst hready hcmd
  obtain ⟨hbusy, hvalid⟩ := (cmdReady_iff _).1 hready
  change blockMove (hostMove s) = _
  simp only [blockMove, hrst, hbusy, hvalid, hcmd, Bool.false_and, Bool.false_eq_true, if_false]

/-- Settles O18: each of the three looks at SEEDED before anything else. -/
theorem unseededEngineFaultsNotSeeded : Obligations.UnseededEngineFaultsNotSeeded := by
  intro s hs
  have hns : ¬ s.engine.seeded = true := Bool.eq_false_iff.1 hs
  exact ⟨if_neg hns, exec_draw_of_unseeded hs, if_neg hns⟩

/-- Settles O19: a seeded DRAW compares its bounds next, and CFGW has one check. -/
theorem badOperandsFaultByName : Obligations.BadOperandsFaultByName := by
  refine ⟨fun s low high hs hlt => (if_pos hs).trans (if_pos hlt), fun s bits max hbits => if_neg ?_⟩
  rw [legalBits_iff]
  omega

/-! ### What a response that appears says (60_exceptions.md R206, R208) -/

/-- A command's response carries the status it ends with. -/
theorem status_of_respond {st : Status} {d : Word} {s : State} {c : BitVec 4}
    (h : (respond st d s).rsp.status = some c) : c = statusCode st :=
  (Option.some.inj h).symm

section
variable {s t : State} (hs : s.rsp.valid = false) (ht : t.rsp.valid = true)
include hs ht

/-- A move that leaves the response register makes no response appear. -/
theorem false_of_rsp_eq (hrsp : t.rsp = s.rsp) : False := by
  rw [hrsp, hs] at ht
  cases ht

/-- A packet that ends with a fault, legal or not, leaves the fault's state. -/
theorem eq_faulted_of_runPacket {p : Packet} {c : BitVec 4} (hrun : runPacket p s = .next t)
    (hc : t.rsp.status = some c) (hne : c ≠ 0) : t = faulted c s := by
  rcases runPacket_next_cases hrun with ⟨i, -, hexec⟩ | ⟨e, -, rfl⟩
  · rcases exec_cases hexec with hend | ⟨low, high, -, rfl⟩
    · cases hend with
      | ok d u _ _ _ _ => exact absurd (status_of_respond hc) hne
      | fault st hst =>
        rw [status_of_respond hc]
        exact raise_eq_faulted hst s
    · exact (false_of_rsp_eq hs ht rfl).elim
  · rw [status_of_respond hc]
    exact raise_eq_faulted (st := .illegalCmd) nofun s

/-- Of the micro-steps only FINISH and, at a DRAW_WORD_CAP, EXHAUST respond. -/
theorem microStep_responds {p : Config.Params} (hmicro : microStep p s = .next t) :
    (∃ result, t = drawFinish result s) ∨ (p.drawWordCap = some (readUsed s) ∧ t = drawExhaust s) := by
  rcases microStep_next_cases hmicro with ⟨-, rfl⟩ | ⟨-, rfl⟩ | ⟨-, hcap, rfl⟩ | ⟨-, -, raw, e, -, rfl⟩ | ⟨-, rfl⟩
  · exact (false_of_rsp_eq hs ht rfl).elim
  · exact (false_of_rsp_eq hs ht (by rw [drawTest_eq])).elim
  · exact .inr ⟨hcap, rfl⟩
  · exact (false_of_rsp_eq hs ht (by rw [drawTake_eq]; rfl)).elim
  · rcases drawEval_cases s with ⟨-, heval⟩ | ⟨-, heval⟩
    · exact .inl ⟨_, heval⟩
    · exact (false_of_rsp_eq hs ht (by rw [heval]; rfl)).elim

end

/-- Settles O16: a command faults by `raise` on the state it found, a micro-step by EXHAUST alone. -/
theorem faultedCommandChangesOnlyTheRecord : Obligations.FaultedCommandChangesOnlyTheRecord := by
  refine ⟨fun p s t c hrun hs ht hc hne => eq_faulted_of_runPacket hs ht hrun hc hne,
    fun p s t c hmicro hs ht hc hne => ?_⟩
  rcases microStep_responds hs ht hmicro with ⟨result, rfl⟩ | ⟨-, rfl⟩
  · exact absurd (status_of_respond hc) hne
  · exact ⟨status_of_respond hc, raise_eq_faulted (st := .samplingExhausted) nofun _⟩

/-- Settles O17, from what each command can answer and which micro-steps respond. -/
theorem statusCodesOfEachCommand : Obligations.StatusCodesOfEachCommand := by
  refine ⟨fun i s t c hexec hs ht hc => ?_, fun p s t c hmicro hs ht hc => ?_⟩
  · cases i with
    | hclr | hbyte _ | seed _ | seedh =>
      cases hexec
      exact status_of_respond hc
    | next =>
      rcases exec_next_cases hexec with ⟨-, w, e, -, rfl⟩ | ⟨-, rfl⟩
      · exact .inl (status_of_respond hc)
      · exact .inr (status_of_respond hc)
    | cfgw bits max =>
      rcases exec_cfgw_cases hexec with ⟨-, rfl⟩ | ⟨-, rfl⟩
      · exact .inl (status_of_respond hc)
      · exact .inr (status_of_respond hc)
    | draw low high =>
      rcases exec_draw_cases hexec with ⟨-, rfl⟩ | ⟨-, -, rfl⟩ | ⟨-, -, -, rfl⟩ | ⟨-, -, -, rfl⟩
      · exact .inr (.inl (status_of_respond hc))
      · exact .inr (.inr (status_of_respond hc))
      · exact .inl (status_of_respond hc)
      · exact (false_of_rsp_eq hs ht rfl).elim
    | rdreg reg =>
      rcases exec_rdreg_cases hexec with ⟨r, d, -, rfl⟩ | ⟨hreg, -, rfl⟩ | ⟨-, rfl⟩
      · exact .inl (status_of_respond hc)
      · exact .inr (.inr ⟨status_of_respond hc, regName_eq_idx hreg⟩)
      · exact .inr (.inl (status_of_respond hc))
  · rcases microStep_responds hs ht hmicro with ⟨result, rfl⟩ | ⟨hcap, rfl⟩
    · exact .inl (status_of_respond hc)
    · exact .inr ⟨status_of_respond hc, by simp [hcap]⟩

end Sys2Proof
end

section
/-! PROOFS. The statements of 70_reset_and_hazards.md: what a block that is not ready leaves, and what reset leaves. -/

namespace Sys2Proof

open Machine

/-! ### While `cmd_ready` is 0 (70_reset_and_hazards.md R250, R253) -/

/-- Without a reset only the acceptance of a packet changes the host's port, and a block that is not ready accepts none. -/
theorem blockMove_host_of_not_ready {s t : State} (hrst : s.host.pins.rst = false) (hready : cmdReady s = false)
    (h : blockMove s = .next t) : t.host = s.host := by
  rcases blockMove_next_cases h with ⟨hr, -⟩ | ⟨-, -, -, rfl⟩ | ⟨-, -, hmicro⟩ | ⟨-, -, -, rfl⟩ | ⟨-, hr, -⟩ |
    ⟨-, hr, -⟩
  · simp [hrst] at hr
  · rfl
  · obtain ⟨-, -, hhost, -⟩ := microStepFrame _ _ _ hmicro
    exact hhost
  · rfl
  · simp [hready] at hr
  · simp [hready] at hr

/-- A block whose response waits for the host stays as it is. -/
theorem blockMove_of_waiting_response {s : State} (hrst : s.host.pins.rst = false) (hvalid : s.rsp.valid = true)
    (hrsp : s.host.pins.rspReady = false) (hbusy : s.draw.busy = false) : blockMove s = .next s := by
  simp [blockMove, hrst, hvalid, hrsp, hbusy]

/-- Settles O10: the offer stands in the host's port, and a response that waits holds the block as it is. -/
theorem offerWaitsWhileNotReady : Obligations.OfferWaitsWhileNotReady := by
  intro s t hrst hready hstep
  refine ⟨blockMove_host_of_not_ready hrst hready hstep, fun hvalid hrsp hbusy => ?_⟩
  have hstay : step s = .next (hostMove s) := blockMove_of_waiting_response hrst hvalid hrsp hbusy
  rw [hstay] at hstep
  cases hstep
  rfl

/-! ### Reset (70_reset_and_hazards.md R240) -/

/-- Reset goes before every other move the block could make. -/
theorem blockMove_of_rst {s : State} (hrst : s.host.pins.rst = true) : blockMove s = .next (resetBlock s) :=
  if_pos hrst

/-- The first state is what reset leaves of any block, but for the host's port and the count of resets. -/
theorem reset_eq_resetBlock (s : State) :
    State.reset = { resetBlock s with host := State.reset.host, resets := 0 } := rfl

/-- Settles O9: the step is `resetBlock`, whatever was running. -/
theorem resetLeavesTheStatedValues : Obligations.ResetLeavesTheStatedValues :=
  fun s hrst => ⟨resetBlock (hostMove s), blockMove_of_rst hrst, rfl, rfl, rfl, rfl, rfl, rfl, rfl, rfl, rfl, rfl, rfl,
    rfl, rfl, reset_eq_resetBlock (hostMove s)⟩

/-- Settles O54: `resetBlock` always leaves a sound state, and soundness speaks of no part in which the first state differs. -/
theorem resetIsSound : Obligations.ResetIsSound := by
  obtain ⟨hengine, hcfg, herr, hrsp, hdraw⟩ := inv_resetBlock State.reset
  exact ⟨hengine, hcfg, herr, hrsp, hdraw⟩

end Sys2Proof
end
